-- ==== Sys2Proof/Word.lean ====
section
/-! DEFINITION. The two word types: a byte of the register map, and the host's 17-bit transaction word. -/

namespace Sys2Proof

/-- "A byte is 8 bits and holds an unsigned value 0 to 255" (spec/00 R6). -/
abbrev Byte := BitVec 8

/-- A host transaction word: bit 16 write flag, bits 15:8 address, bits 7:0 data (spec/30 R53). -/
abbrev TxWord := BitVec 17

end Sys2Proof
end

