-- ==== Sys2Proof/Config.lean ====
section
/-! DEFINITION. The parameters of the block (spec/00 R5) and the addresses of the register map (spec/20 R31), fixed at
build time. No value is left free: the spec leaves no result open. -/

namespace Sys2Proof.Config

/-- Bytes in an encoded frame, always. -/
abbrev frameSize : Nat := 54

/-! Widths of the seven fields of a frame. -/
abbrev hostW : Nat := 16
abbrev portW : Nat := 6
abbrev seqW : Nat := 1
abbrev ckW : Nat := 3
abbrev payW : Nat := 6

/-! Offsets of the seven fields in a frame. -/
abbrev offSH : Nat := 0
abbrev offSP : Nat := 16
abbrev offDH : Nat := 22
abbrev offDP : Nat := 38
abbrev offSEQ : Nat := 44
abbrev offCK : Nat := 45
abbrev offPL : Nat := 48

/-- The byte that marks the final segment: 46, the period. -/
abbrev terminator : Byte := 46#8
/-- The largest payload, in bytes, the host can present to ENC or CKS (D5). -/
abbrev payInMax : Nat := 16
/-- Bits of the checksum accumulator (D5). -/
abbrev sumW : Nat := 12
/-- Fill byte of host and port fields: ASCII space (D6). -/
abbrev addrPad : Byte := 0x20#8
/-- Fill byte of the payload field (D7). -/
abbrev payPad : Byte := 0x00#8

/-! Base addresses of the byte arrays of the register map (spec/20 R31). -/
abbrev baseSH : Byte := 0x00#8
abbrev baseSP : Byte := 0x10#8
abbrev baseDH : Byte := 0x18#8
abbrev baseDP : Byte := 0x28#8
abbrev basePL : Byte := 0x30#8
abbrev baseCK : Byte := 0x46#8
abbrev baseFB : Byte := 0x80#8

/-! Addresses of the single registers, the view LAST and the command address (spec/20 R31). -/
abbrev addrSHL : Byte := 0x40#8
abbrev addrSPL : Byte := 0x41#8
abbrev addrDHL : Byte := 0x42#8
abbrev addrDPL : Byte := 0x43#8
abbrev addrPLL : Byte := 0x44#8
abbrev addrSEQ : Byte := 0x45#8
abbrev addrLAST : Byte := 0x49#8
abbrev addrSTATUS : Byte := 0x4A#8
abbrev addrFBL : Byte := 0x4B#8
abbrev addrCMD : Byte := 0x4C#8

/-! Command codes, the data byte of a write to CMD (spec/30 R55). -/
abbrev codeCKS : Byte := 0x01#8
abbrev codeENC : Byte := 0x02#8
abbrev codeDEC : Byte := 0x03#8

end Sys2Proof.Config
end

