-- ==== Sys2Proof/Syntax.lean ====
section
/-! DEFINITION. The transactions of the host: one constructor per row of spec/opcode_table.json. -/

namespace Sys2Proof

/-- A host transaction (spec/30 R54, R55). -/
inductive Instr where
  /-- CKS: checksum of the supplied payload (spec/40 R76). -/
  | cks
  /-- ENC: build the frame from the F registers (spec/41 R84). -/
  | enc
  /-- DEC: parse the frame buffer into the F registers (spec/42 R91). -/
  | dec
  /-- ILLCMD: a write to CMD of a byte `d` that is no command code (spec/60 R118). -/
  | illcmd (d : Byte)
  /-- HWR a, d: plain host write of the byte `d` to address `a` (spec/43 R106). -/
  | hwr (a d : Byte)
  /-- HRD a: host read of the byte at address `a` (spec/43 R105). -/
  | hrd (a : Byte)
  deriving DecidableEq, Repr

/-- The instruction's mnemonic, as spec/opcode_table.json spells it. -/
def Instr.mnemonic : Instr → String
  | .cks => "CKS"
  | .enc => "ENC"
  | .dec => "DEC"
  | .illcmd _ => "ILLCMD"
  | .hwr _ _ => "HWR"
  | .hrd _ => "HRD"

end Sys2Proof
end

