-- ==== Sys2Proof/WellFormed.lean ====
section
/-! DEFINITION. Which transactions have an encoding: the opcode table's rows ILLCMD and HWR are matched only after the
rows above them failed (spec/30 R56), so their operands exclude those rows' values. -/

namespace Sys2Proof

/-- The byte is one of the three command codes of spec/30 R55. -/
abbrev isCommandCode (d : Byte) : Prop :=
  d = Config.codeCKS ∨ d = Config.codeENC ∨ d = Config.codeDEC

/-- The transaction is one the decoder can give: an illegal command carries no command code, and a plain write does not
go to CMD. -/
abbrev Instr.WellFormed : Instr → Prop
  | .cks => True
  | .enc => True
  | .dec => True
  | .illcmd d => ¬ isCommandCode d
  | .hwr a _ => a ≠ Config.addrCMD
  | .hrd _ => True

end Sys2Proof
end

