-- ==== Sys2Proof/Decode.lean ====
section
/-! DEFINITION. Decoding a transaction word (total, spec/30 R56), decoding bytes (rejecting by name), the encoder, and
the opcode table as mask-and-pattern rows. -/

namespace Sys2Proof

/-! ## The word's fields (spec/30 R53) -/

/-- Bit 16: 1 for a write. -/
def TxWord.isWrite (w : TxWord) : Bool := w.getLsbD 16
/-- Bits 15:8: the register-map address. -/
def TxWord.addr (w : TxWord) : Byte := w.extractLsb' 8 8
/-- Bits 7:0: the data byte. -/
def TxWord.data (w : TxWord) : Byte := w.extractLsb' 0 8
/-- The word with write flag `f`, address `a` and data `d`. -/
def TxWord.build (f : BitVec 1) (a d : Byte) : TxWord :=
  (f.setWidth 17 <<< 16) ||| (a.setWidth 17 <<< 8) ||| d.setWidth 17

/-! ## Decoding -/

/-- "Decoding a transaction word, in order": a read, a plain write, then the command codes (spec/30 R56). A read's bits
7:0 are ignored (spec/30 R53; log entry 8). -/
def decode (w : TxWord) : Instr :=
  if w.isWrite = false then .hrd w.addr
  else if w.addr ≠ Config.addrCMD then .hwr w.addr w.data
  else if w.data = Config.codeCKS then .cks
  else if w.data = Config.codeENC then .enc
  else if w.data = Config.codeDEC then .dec
  else .illcmd w.data

/-- Why bytes are not the bytes of a transaction. -/
inductive DecodeError where
  /-- Fewer than three bytes are left. -/
  | truncated
  /-- The third byte holds more than bit 16: the number is wider than a 17-bit word. -/
  | widerThanWord
  deriving DecidableEq, Repr

/-- Decoding bytes: three bytes, data byte first, then the address, then the write flag, which must be 0 or 1
(DESIGN CHOICE, log entry 6: the spec leaves the carriage of a word to the platform). Answers the transaction and the
bytes after it. -/
def decodeBytes : List Byte → Except DecodeError (Instr × List Byte)
  | d :: a :: f :: rest =>
    if f.toNat < 2 then .ok (decode (TxWord.build (f.setWidth 1) a d), rest) else .error .widerThanWord
  | _ => .error .truncated

/-- The three bytes, lowest first, of the number `w`. -/
def bytesOfNat (w : Nat) : List Byte :=
  [BitVec.ofNat 8 w, BitVec.ofNat 8 (w / 256), BitVec.ofNat 8 (w / 65536)]

/-- What the decoder reads from an instruction whose low `nbits` bits are those of `w` and whose other bits are 0;
none where it refuses (a number wider than 17 bits). -/
def decodeTableWord (nbits w : Nat) : Option Instr :=
  if w % 2 ^ nbits < 2 ^ 24 then
    match decodeBytes (bytesOfNat (w % 2 ^ nbits)) with
    | .ok (i, _) => some i
    | .error _ => none
  else none

/-! ## Encoding -/

/-- The word of a transaction (spec/30 R54, R55, R61); a read's ignored bits are written as 0x00 (spec/30 R53). -/
def encode : Instr → TxWord
  | .cks => TxWord.build 1#1 Config.addrCMD Config.codeCKS
  | .enc => TxWord.build 1#1 Config.addrCMD Config.codeENC
  | .dec => TxWord.build 1#1 Config.addrCMD Config.codeDEC
  | .illcmd d => TxWord.build 1#1 Config.addrCMD d
  | .hwr a d => TxWord.build 1#1 a d
  | .hrd a => TxWord.build 0#1 a 0x00#8

/-! ## The opcode table as rows (spec/opcode_table.json, spec/30 R54 to R56) -/

/-- One row: a word belongs to it when its bits under `mask` are those of `pattern`. -/
structure OpcodeRow where
  mnemonic : String
  pattern : TxWord
  mask : TxWord
  deriving DecidableEq, Repr

/-- The rows, "listed most specific first". -/
def opcodeTable : List OpcodeRow :=
  [ ⟨"CKS", 0x14C01#17, 0x1FFFF#17⟩,
    ⟨"ENC", 0x14C02#17, 0x1FFFF#17⟩,
    ⟨"DEC", 0x14C03#17, 0x1FFFF#17⟩,
    ⟨"ILLCMD", 0x14C00#17, 0x1FF00#17⟩,
    ⟨"HWR", 0x10000#17, 0x10000#17⟩,
    ⟨"HRD", 0x00000#17, 0x10000#17⟩ ]

/-- The word matches the row. -/
def OpcodeRow.admits (r : OpcodeRow) (w : TxWord) : Bool := w &&& r.mask == r.pattern

/-- "a decoder takes the first row that matches" (spec/30 R56). -/
def firstRow (w : TxWord) : Option OpcodeRow := opcodeTable.find? (·.admits w)

end Sys2Proof
end

