-- ==== Sys2Proof/Machine/State.lean ====
section
/-! DEFINITION. The machine's state (spec/10 R10), the host's pending events, the reasons a step may stop, and reset. -/

namespace Sys2Proof.Machine

/-- What the host applies to the block: a transaction word, or the reset event, which "is not a transaction and has no
encoding" (spec/70 R130, R147). -/
inductive HostEvent where
  | word (w : TxWord)
  | reset
  deriving DecidableEq, Repr

/-- The machine's state: the tuple of spec/10 R10, and two fields that are the model's own, `script` and `reply`.
Lengths are held as the bytes the register map shows; their bounds are the invariant of spec/10 R23
(`Sys2Proof.Machine.State.Inv`). -/
structure State where
  /-- SH[0..15], the source host (R11). -/
  sh : Vector Byte 16
  /-- SHL, its length (R11). -/
  shl : Byte
  /-- SP[0..5], the source port as text (R12). -/
  sp : Vector Byte 6
  /-- SPL, its length (R12). -/
  spl : Byte
  /-- DH[0..15], the destination host (R13). -/
  dh : Vector Byte 16
  /-- DHL, its length (R13). -/
  dhl : Byte
  /-- DP[0..5], the destination port as text (R14). -/
  dp : Vector Byte 6
  /-- DPL, its length (R14). -/
  dpl : Byte
  /-- SEQ, the sequence bit (R15). -/
  seq : BitVec 1
  /-- CK[0..2], the checksum code (R16). -/
  ck : Vector Byte 3
  /-- PL[0..15], the payload (R17). -/
  pl : Vector Byte 16
  /-- PLL, its length (R17). -/
  pll : Byte
  /-- FB[0..53], the frame in wire form (R18). -/
  fb : Vector Byte 54
  /-- FBL, the length of the datagram in FB, as the host wrote it (R19). -/
  fbl : Byte
  /-- STATUS, the outcome of the last command (R20). -/
  status : Byte
  /-- MODEL'S OWN (log entry 1): what the host will apply next, oldest first. -/
  script : List HostEvent
  /-- MODEL'S OWN (log entry 2): the byte the last transaction returned to the host, none if it returned none. -/
  reply : Option Byte
  deriving DecidableEq, Repr

/-- No fault exists: "no state is a fault state that blocks later steps" (spec/70 R147), and no access faults
(spec/20 R35). Nothing raises one; safe, since a step can never end in one. Log entry 3. -/
inductive Fault where
  deriving DecidableEq, Repr

/-- Why the model gives an instruction no meaning. -/
inductive Refusal where
  /-- The instruction has no meaning in this model. Raised only by an arm of `exec` that rejects by name; every arm has
  its meaning, so nothing raises it. Safe: a refused step proves nothing of the hardware. -/
  | notModelled (mnemonic : String)
  deriving DecidableEq, Repr

/-- "After reset every register of rule R10 is zero" (spec/10 R27). The host has issued nothing yet and nothing was
returned (log entries 1 and 2). -/
def State.reset : State where
  sh := Vector.replicate 16 0#8
  shl := 0#8
  sp := Vector.replicate 6 0#8
  spl := 0#8
  dh := Vector.replicate 16 0#8
  dhl := 0#8
  dp := Vector.replicate 6 0#8
  dpl := 0#8
  seq := 0#1
  ck := Vector.replicate 3 0#8
  pl := Vector.replicate 16 0#8
  pll := 0#8
  fb := Vector.replicate 54 0#8
  fbl := 0#8
  status := 0x00#8
  script := []
  reply := none

end Sys2Proof.Machine
end

