-- ==== Sys2Proof/Machine/Operands.lean ====
section
/-! DEFINITION. Operands: the byte-sequence helpers (spec/00 R8), the strings the commands take from the registers, and
the locations of the register map (spec/20 R31). -/

namespace Sys2Proof.Machine

/-! ## Helper functions on byte sequences (spec/00 R8) -/

/-- `padR(s, W, P)`: the first bytes of `s`, at most `W`, then the fill byte `P` up to `W` bytes. -/
def padR (s : List Byte) (W : Nat) (P : Byte) : Vector Byte W :=
  Vector.ofFn fun i => s.getD i.val P

/-- The loop of `stripR`: "while L > 0 and f[L-1] == P: L = L - 1". -/
def stripLoop {W : Nat} (f : Vector Byte W) (P : Byte) : Nat → Nat
  | 0 => 0
  | L + 1 => if f[L]? = some P then stripLoop f P L else L + 1

/-- `stripR(f, P)`: the length of `f` without its trailing fill bytes. -/
def stripR {W : Nat} (f : Vector Byte W) (P : Byte) : Nat := stripLoop f P W

/-- `isdigit(b)`: 0x30 to 0x39. -/
def isdigit (b : Byte) : Bool := 0x30#8 ≤ b && b ≤ 0x39#8

/-- `isnum(f)`: at least one byte before the trailing spaces, and all of them digits. -/
def isnum (f : Vector Byte 6) : Bool :=
  1 ≤ stripR f Config.addrPad && (f.toList.take (stripR f Config.addrPad)).all isdigit

/-- The `W` bytes of a frame from offset `off` on (spec/30 R45). -/
def slice (f : Vector Byte 54) (off W : Nat) (h : off + W ≤ 54 := by decide) : Vector Byte W :=
  Vector.ofFn fun i => f[off + i.val]

/-- A length as the byte a length register holds. -/
def lengthByte (n : Nat) : Byte := BitVec.ofNat 8 n

/-- `min(v, m)`, what a length register stores of a written byte (spec/10 R11, R12, R17; D8). -/
def clamp (v : Byte) (m : Nat) : Byte := BitVec.ofNat 8 (min v.toNat m)

/-! ## The strings of the F registers

`X[0..XL-1]` of spec/10 R11 to R17. For a length above the array's size, which spec/10 R23 rules out, the string is the
whole array (log entry 7). -/

/-- The first `n` bytes of an array register. -/
def prefixOf {W : Nat} (v : Vector Byte W) (n : Byte) : List Byte := v.toList.take n.toNat

/-- The source host string. -/
def State.srcHost (s : State) : List Byte := prefixOf s.sh s.shl
/-- The source port string. -/
def State.srcPort (s : State) : List Byte := prefixOf s.sp s.spl
/-- The destination host string. -/
def State.dstHost (s : State) : List Byte := prefixOf s.dh s.dhl
/-- The destination port string. -/
def State.dstPort (s : State) : List Byte := prefixOf s.dp s.dpl
/-- The supplied payload, `PL[0..PLL-1]`. -/
def State.payload (s : State) : List Byte := prefixOf s.pl s.pll

/-! ## The register map (spec/20 R31) -/

/-- What stands at an address of the register map. -/
inductive Loc where
  | sh (i : Fin 16)
  | sp (i : Fin 6)
  | dh (i : Fin 16)
  | dp (i : Fin 6)
  | pl (i : Fin 16)
  | shl
  | spl
  | dhl
  | dpl
  | pll
  | seq
  | ck (i : Fin 3)
  | last
  | status
  | fbl
  | cmd
  | fb (i : Fin 54)
  /-- A reserved address (spec/20 R32). -/
  | reserved
  deriving DecidableEq, Repr

/-- The register map: the location at an address given as a number (spec/20 R31). -/
def locateNat (n : Nat) : Loc :=
  if h : n < 0x10 then .sh ⟨n, h⟩
  else if h : 0x10 ≤ n ∧ n < 0x16 then .sp ⟨n - 0x10, by omega⟩
  else if h : 0x18 ≤ n ∧ n < 0x28 then .dh ⟨n - 0x18, by omega⟩
  else if h : 0x28 ≤ n ∧ n < 0x2E then .dp ⟨n - 0x28, by omega⟩
  else if h : 0x30 ≤ n ∧ n < 0x40 then .pl ⟨n - 0x30, by omega⟩
  else if n = 0x40 then .shl
  else if n = 0x41 then .spl
  else if n = 0x42 then .dhl
  else if n = 0x43 then .dpl
  else if n = 0x44 then .pll
  else if n = 0x45 then .seq
  else if h : 0x46 ≤ n ∧ n < 0x49 then .ck ⟨n - 0x46, by omega⟩
  else if n = 0x49 then .last
  else if n = 0x4A then .status
  else if n = 0x4B then .fbl
  else if n = 0x4C then .cmd
  else if h : 0x80 ≤ n ∧ n < 0xB6 then .fb ⟨n - 0x80, by omega⟩
  else .reserved

/-- The location at an 8-bit address. -/
def locate (a : Byte) : Loc := locateNat a.toNat

end Sys2Proof.Machine
end

