-- ==== Sys2Proof/Machine/Flags.lean ====
section
/-! DEFINITION. The status register's fields and values (spec/10 R20, spec/60 R116) and the view LAST (spec/10 R22). -/

namespace Sys2Proof.Machine

/-- The two synchronous exceptions (spec/60 R115). -/
inductive Exn where
  | frameFormatError
  | illegalCommand
  deriving DecidableEq, Repr

/-- The causes of spec/60 R116. -/
inductive Cause where
  | length
  | srcPort
  | dstPort
  | seq
  | illegalCmd
  deriving DecidableEq, Repr

/-- The cause's number, the value of STATUS.CAUSE (spec/60 R116). -/
def Cause.code : Cause → BitVec 3
  | .length => 1#3
  | .srcPort => 2#3
  | .dstPort => 3#3
  | .seq => 4#3
  | .illegalCmd => 7#3

/-- The exception a cause belongs to (spec/60 R116). -/
def Cause.exn : Cause → Exn
  | .length => .frameFormatError
  | .srcPort => .frameFormatError
  | .dstPort => .frameFormatError
  | .seq => .frameFormatError
  | .illegalCmd => .illegalCommand

/-- The STATUS byte of a raise, `(cause << 1) | 1`: bits 7:4 zero, CAUSE in bits 3:1, ERR = 1 (spec/10 R20). -/
def Cause.statusByte (c : Cause) : Byte := (c.code.setWidth 8 <<< 1) ||| 1#8

/-- The STATUS byte of a command that completes (spec/10 R20, D31). -/
def statusOk : Byte := 0x00#8

/-- STATUS.ERR, bit 0 (spec/10 R20). -/
def State.err (s : State) : BitVec 1 := s.status.extractLsb' 0 1

/-- STATUS.CAUSE, bits 3:1 (spec/10 R20). -/
def State.cause (s : State) : BitVec 3 := s.status.extractLsb' 1 3

/-- The view LAST: 1 when the supplied payload holds the terminator (spec/10 R22). -/
def State.last (s : State) : BitVec 1 := if s.payload.any (· == Config.terminator) then 1#1 else 0#1

end Sys2Proof.Machine
end

