-- ==== Sys2Proof/Machine/Ops.lean ====
section
/-! DEFINITION. The shared operations: reading and writing a location of the register map, writing STATUS, taking an
exception, reset, and accepting a transaction. -/

namespace Sys2Proof.Machine

/-! ## The register map's reads and writes (spec/43 R105, R106) -/

/-- What a host read of a location returns (spec/43 R105). CMD and reserved addresses read 0x00 (spec/10 R21,
spec/20 R32). -/
def State.readLoc (s : State) : Loc → Byte
  | .sh i => s.sh[i]
  | .sp i => s.sp[i]
  | .dh i => s.dh[i]
  | .dp i => s.dp[i]
  | .pl i => s.pl[i]
  | .shl => s.shl
  | .spl => s.spl
  | .dhl => s.dhl
  | .dpl => s.dpl
  | .pll => s.pll
  | .seq => s.seq.setWidth 8
  | .ck i => s.ck[i]
  | .last => s.last.setWidth 8
  | .status => s.status
  | .fbl => s.fbl
  | .cmd => 0x00#8
  | .fb i => s.fb[i]
  | .reserved => 0x00#8

/-- `MemRead(a, 1)`: the byte a host read of address `a` returns. -/
def State.read (s : State) (a : Byte) : Byte := s.readLoc (locate a)

/-- What a plain host write of the byte `d` to a location does (spec/43 R106): length registers clamp, SEQ keeps bit 0,
CK, LAST, STATUS and reserved addresses ignore it, and CMD stores nothing (spec/10 R21). -/
def State.writeLoc (s : State) (d : Byte) : Loc → State
  | .sh i => { s with sh := s.sh.set i.val d }
  | .sp i => { s with sp := s.sp.set i.val d }
  | .dh i => { s with dh := s.dh.set i.val d }
  | .dp i => { s with dp := s.dp.set i.val d }
  | .pl i => { s with pl := s.pl.set i.val d }
  | .shl => { s with shl := clamp d Config.hostW }
  | .spl => { s with spl := clamp d Config.portW }
  | .dhl => { s with dhl := clamp d Config.hostW }
  | .dpl => { s with dpl := clamp d Config.portW }
  | .pll => { s with pll := clamp d Config.payInMax }
  | .seq => { s with seq := d.extractLsb' 0 1 }
  | .ck _ => s
  | .last => s
  | .status => s
  | .fbl => { s with fbl := d }
  | .cmd => s
  | .fb i => { s with fb := s.fb.set i.val d }
  | .reserved => s

/-! ## STATUS, taking an exception, and its end -/

/-- "Every command writes the whole of STATUS" (spec/10 R20). -/
def State.setStatus (s : State) (v : Byte) : State := { s with status := v }

/-- Taking an exception, `raise E(cause)`: "STATUS <- (c << 1) | 1; end the command", and "No other state changes"
(spec/60 R119). No register is saved, no mode changes, and control goes nowhere. -/
def State.raise (s : State) (c : Cause) : State := s.setStatus c.statusByte

/-- A command that completes writes STATUS 0x00. "There is no return instruction and nothing to restore": the next
command's write of STATUS is all that ends an error (spec/60 R121). -/
def State.complete (s : State) : State := s.setStatus statusOk

/-! ## Reset and the host's stream -/

/-- The reset event: "From any state whatever, reset gives the all-zero state" (spec/70 R130). What the host will do
after it (`rest`) is not state of the block. -/
def resetBlock (rest : List HostEvent) : State := { State.reset with script := rest }

/-- Accepting a transaction: it leaves the host's stream, and until it returns a byte it has returned none
(spec/43 R108: "no byte"). -/
def State.accept (s : State) (rest : List HostEvent) : State := { s with script := rest, reply := none }

/-- Returning a byte to the host (spec/30 R53: "A read returns one byte to the host"). -/
def State.answer (s : State) (v : Byte) : State := { s with reply := some v }

end Sys2Proof.Machine
end

