-- ==== Sys2Proof/Machine/FrameDecode.lean ====
section
/-! DEFINITION. The decode function (spec/42 R90) and the command DEC (spec/42 R91). -/

namespace Sys2Proof.Machine

/-- The Frame that decoding gives: each field's bytes with the length of its text (spec/42 R90). -/
structure Frame where
  sourceAddress : Vector Byte 16
  sourceAddressLen : Nat
  sourcePort : Vector Byte 6
  sourcePortLen : Nat
  destAddress : Vector Byte 16
  destAddressLen : Nat
  destPort : Vector Byte 6
  destPortLen : Nat
  sequence : BitVec 1
  checksum : Vector Byte 3
  payload : Vector Byte 6
  payloadLen : Nat
  isLastMessage : Bool
  deriving DecidableEq, Repr

/-- The Frame read from 54 bytes, with no check (the last part of spec/42 R90). -/
def frameOf (f : Vector Byte 54) : Frame where
  sourceAddress := slice f Config.offSH Config.hostW
  sourceAddressLen := stripR (slice f Config.offSH Config.hostW) Config.addrPad
  sourcePort := slice f Config.offSP Config.portW
  sourcePortLen := stripR (slice f Config.offSP Config.portW) Config.addrPad
  destAddress := slice f Config.offDH Config.hostW
  destAddressLen := stripR (slice f Config.offDH Config.hostW) Config.addrPad
  destPort := slice f Config.offDP Config.portW
  destPortLen := stripR (slice f Config.offDP Config.portW) Config.addrPad
  sequence := (f[Config.offSEQ] - 0x30#8).extractLsb' 0 1
  checksum := slice f Config.offCK Config.ckW
  payload := slice f Config.offPL Config.payW
  payloadLen := stripR (slice f Config.offPL Config.payW) Config.payPad
  isLastMessage := (slice f Config.offPL Config.payW).toList.any (· == Config.terminator)

/-- `decode(f, n)`: the checks in the order length, source port, destination port, sequence byte, the first failure
giving the cause; otherwise the Frame (spec/42 R90, R92 to R96). -/
def decodeFrame (f : Vector Byte 54) (n : Nat) : Except Cause Frame :=
  if n ≠ Config.frameSize then .error .length
  else if ¬ isnum (slice f Config.offSP Config.portW) then .error .srcPort
  else if ¬ isnum (slice f Config.offDP Config.portW) then .error .dstPort
  else if f[Config.offSEQ] ≠ 0x30#8 ∧ f[Config.offSEQ] ≠ 0x31#8 then .error .seq
  else .ok (frameOf f)

/-- What a DEC that completes writes to the F registers: all of them, PL[6..15] with 0x00 (spec/42 R91, R98). The view
LAST is computed, so `isLastMessage` is stored nowhere (spec/10 R22). -/
def State.load (s : State) (r : Frame) : State :=
  { s with
    sh := r.sourceAddress, shl := lengthByte r.sourceAddressLen,
    sp := r.sourcePort, spl := lengthByte r.sourcePortLen,
    dh := r.destAddress, dhl := lengthByte r.destAddressLen,
    dp := r.destPort, dpl := lengthByte r.destPortLen,
    seq := r.sequence, ck := r.checksum,
    pl := r.payload ++ Vector.replicate 10 0x00#8, pll := lengthByte r.payloadLen }

/-- The command DEC: raise with the first failing check's cause, writing STATUS only (spec/42 R97), or load the F
registers and write STATUS 0x00 (spec/42 R98). -/
def doDec (s : State) : State :=
  match decodeFrame s.fb s.fbl.toNat with
  | .error c => s.raise c
  | .ok r => (s.load r).complete

/-- The meaning of DEC (spec/42 R91). -/
def execDec (s : State) : Host.Outcome State Fault Refusal := .next (doDec s)

end Sys2Proof.Machine
end

