-- ==== Sys2Proof/Machine/Checksum.lean ====
section
/-! DEFINITION. The checksum function (spec/40 R70 to R73, spec/00 R9) and the command CKS (spec/40 R76). -/

namespace Sys2Proof.Machine

/-- The ASCII digit of `k` below ten (spec/40 R78). -/
def digit (k : Nat) : Byte := BitVec.ofNat 8 (0x30 + k)

/-- Decimal digits of `n`, most significant first; `fuel` bounds the number of digits. -/
def decDigits : Nat → Nat → List Byte
  | 0, _ => []
  | fuel + 1, n => if n < 10 then [digit n] else decDigits fuel (n / 10) ++ [digit (n % 10)]

/-- `decstr(S)`: base ten, most significant digit first, no leading zero, "0" for 0 (spec/00 R9). -/
def decstr (S : Nat) : List Byte := decDigits (S + 1) S

/-- `sum(p)`: the exact sum of the unsigned byte values (spec/40 R70 to R72). Log entry 11. -/
def byteSum (p : List Byte) : Nat := (p.map BitVec.toNat).sum

/-- What is kept of the decimal text: its first two digits when it has four or more, else all of it (spec/40 R73). -/
def keptDigits (d : List Byte) : List Byte := if 4 ≤ d.length then d.take 2 else d

/-- The code of a sum: the kept digits, filled on the right with '0' to three characters (spec/40 R73). -/
def codeOfSum (S : Nat) : Vector Byte 3 := padR (keptDigits (decstr S)) 3 0x30#8

/-- `cks(p)`: the three-character checksum code of a payload of any length (spec/40 R72, R73). -/
def cks (p : List Byte) : Vector Byte 3 := codeOfSum (byteSum p)

/-- The command CKS: CK gets the code of the supplied payload, STATUS 0x00 (spec/40 R76). -/
def doCks (s : State) : State := { s with ck := cks s.payload }.complete

/-- The meaning of CKS (spec/40 R76). -/
def execCks (s : State) : Host.Outcome State Fault Refusal := .next (doCks s)

end Sys2Proof.Machine
end

