-- ==== Sys2Proof/Machine/FrameEncode.lean ====
section
/-! DEFINITION. The encode function (spec/41 R81) and the command ENC (spec/41 R84). -/

namespace Sys2Proof.Machine

/-- `encode(sh, sp, dh, dp, seq, p)`: the 54 bytes of a frame. The code is over all of `p`; the payload field takes at
most its first six bytes (spec/41 R81 to R83). -/
def encodeFrame (sh sp dh dp : List Byte) (seq : BitVec 1) (p : List Byte) : Vector Byte 54 :=
  padR sh Config.hostW Config.addrPad
    ++ padR sp Config.portW Config.addrPad
    ++ padR dh Config.hostW Config.addrPad
    ++ padR dp Config.portW Config.addrPad
    ++ (#v[0x30#8 + seq.setWidth 8] : Vector Byte 1)
    ++ cks p
    ++ padR p Config.payW Config.payPad

/-- The frame of the F registers. -/
def State.frame (s : State) : Vector Byte 54 :=
  encodeFrame s.srcHost s.srcPort s.dstHost s.dstPort s.seq s.payload

/-- The command ENC: FB gets the frame, FBL 54, CK the code, STATUS 0x00 (spec/41 R84). -/
def doEnc (s : State) : State :=
  { s with fb := s.frame, fbl := lengthByte Config.frameSize, ck := cks s.payload }.complete

/-- The meaning of ENC (spec/41 R84). -/
def execEnc (s : State) : Host.Outcome State Fault Refusal := .next (doEnc s)

end Sys2Proof.Machine
end

