-- ==== Sys2Proof/Machine/HostAccess.lean ====
section
/-! DEFINITION. The host transactions HRD and HWR, command dispatch, and the illegal command (spec/43 R105 to R107,
spec/60 R118). -/

namespace Sys2Proof.Machine

/-- A write of the byte `d` to CMD runs the command coded `d`, or raises IllegalCommand (spec/43 R107). -/
def issueCommand (d : Byte) (s : State) : State :=
  if d = Config.codeCKS then doCks s
  else if d = Config.codeENC then doEnc s
  else if d = Config.codeDEC then doDec s
  else s.raise .illegalCmd

/-- The meaning of ILLCMD: "Raised when the host writes to address 0x4C a byte other than 0x01, 0x02, 0x03. It records
cause 7" (spec/60 R118). The byte itself is recorded nowhere. -/
def execIllcmd (_d : Byte) (s : State) : Host.Outcome State Fault Refusal := .next (s.raise .illegalCmd)

/-- The meaning of HWR, all of spec/43 R106: the location's write, and for a = 0x4C the command coded `d`. -/
def execHwr (a d : Byte) (s : State) : Host.Outcome State Fault Refusal :=
  .next (if locate a = .cmd then issueCommand d s else s.writeLoc d (locate a))

/-- The meaning of HRD: the byte at the address goes to the host, and nothing else changes (spec/43 R105). -/
def execHrd (a : Byte) (s : State) : Host.Outcome State Fault Refusal := .next (s.answer (s.read a))

end Sys2Proof.Machine
end

