-- ==== Sys2Proof/Machine/Dispatch.lean ====
section
/-! DEFINITION. One arm per constructor of Instr: each calls its instruction's meaning. -/

namespace Sys2Proof.Machine

def exec (i : Instr) (s : State) : Host.Outcome State Fault Refusal :=
  match i with
  | .cks => Sys2Proof.Machine.execCks s
  | .enc => Sys2Proof.Machine.execEnc s
  | .dec => Sys2Proof.Machine.execDec s
  | .illcmd d => Sys2Proof.Machine.execIllcmd d s
  | .hwr a d => Sys2Proof.Machine.execHwr a d s
  | .hrd a => Sys2Proof.Machine.execHrd a s

end Sys2Proof.Machine
end

