-- ==== Sys2Proof/Machine/Step.lean ====
section
/-! DEFINITION. One step: the host's next event, taken whole (spec/43 R108, spec/20 R40). -/

namespace Sys2Proof.Machine

/-- One step: nothing to do holds the state (log entry 10), reset gives the all-zero state (spec/70 R130), a word is
decoded and its transaction runs (spec/43 R108). -/
def step (s : State) : Host.Outcome State Fault Refusal :=
  match s.script with
  | [] => .next s
  | .reset :: rest => .next (resetBlock rest)
  | .word w :: rest => exec (decode w) (s.accept rest)

/-- The state with the transaction of the low `nbits` bits of `w` put in front of what the host will issue, so that the
next step runs it; the state itself where those bits are no 17-bit word (`decodeTableWord` refuses them too). It stands
for the host's issue of one transaction (log entry 1). -/
def State.withFetchWord (s : State) (nbits w : Nat) : State :=
  if w % 2 ^ nbits < 2 ^ 17 then { s with script := .word (BitVec.ofNat 17 (w % 2 ^ nbits)) :: s.script } else s

end Sys2Proof.Machine
end

