-- ==== Sys2Proof/Machine/Script.lean ====
section
/-! DEFINITION. The script notation: lines, pseudo-instructions and the host events they stand for (spec/30 R61, R62).
`Machine/ScriptText.lean` reads the characters of a listing. Log entry 12. -/

namespace Sys2Proof.Machine

/-- A string register a pseudo-instruction can name (spec/30 R62). -/
inductive StrReg where
  | sh
  | sp
  | dh
  | dp
  | pl
  deriving DecidableEq, Repr

/-- `base(r)` (spec/30 R62). -/
def StrReg.base : StrReg → Byte
  | .sh => Config.baseSH
  | .sp => Config.baseSP
  | .dh => Config.baseDH
  | .dp => Config.baseDP
  | .pl => Config.basePL

/-- `len(r)`, the address of the length register (spec/30 R62). -/
def StrReg.lenAddr : StrReg → Byte
  | .sh => Config.addrSHL
  | .sp => Config.addrSPL
  | .dh => Config.addrDHL
  | .dp => Config.addrDPL
  | .pl => Config.addrPLL

/-- The size of the register in bytes. -/
def StrReg.size : StrReg → Nat
  | .sh => Config.hostW
  | .sp => Config.portW
  | .dh => Config.hostW
  | .dp => Config.portW
  | .pl => Config.payInMax

/-- One line of a script: the lines of spec/30 R61 and the pseudo-instructions of spec/30 R62. `SETS` and `SETB` differ
only in how a listing writes the bytes, so one constructor stands for both. -/
inductive ScriptLine where
  | hrd (a : Byte)
  | hwr (a d : Byte)
  | cks
  | enc
  | dec
  | reset
  | sets (r : StrReg) (bytes : List Byte)
  | setseq (b : Byte)
  | loadf (n : Nat) (bytes : List Byte)
  | rds (r : StrReg)
  | rdck
  | rdst
  | rdf
  deriving DecidableEq, Repr

/-- The word of `HRD a` (spec/30 R61). -/
def readEvent (a : Byte) : HostEvent := .word (TxWord.build 0#1 a 0x00#8)
/-- The word of `HWR a, d` (spec/30 R61). -/
def writeEvent (a d : Byte) : HostEvent := .word (TxWord.build 1#1 a d)

/-- Writes of the bytes to consecutive addresses from `a` on, in order. -/
def writeRun (a : Byte) : List Byte → List HostEvent
  | [] => []
  | b :: bs => writeEvent a b :: writeRun (a + 1#8) bs

/-- Reads of `n` consecutive addresses from `a` on, in order. -/
def readRun (a : Byte) : Nat → List HostEvent
  | 0 => []
  | n + 1 => readEvent a :: readRun (a + 1#8) n

/-- The line is one spec/30 R61 and R62 give: a string is no longer than its register, and LOADF gives the datagram's
first `min(n, 54)` bytes. -/
def ScriptLine.wellFormed : ScriptLine → Bool
  | .sets r bytes => bytes.length ≤ r.size
  | .loadf n bytes => bytes.length = min n Config.frameSize
  | .hrd _ | .hwr _ _ | .cks | .enc | .dec | .reset | .setseq _ | .rds _ | .rdck | .rdst | .rdf => true

/-- The events a line stands for (spec/30 R61, R62). -/
def ScriptLine.events : ScriptLine → List HostEvent
  | .hrd a => [readEvent a]
  | .hwr a d => [writeEvent a d]
  | .cks => [writeEvent Config.addrCMD Config.codeCKS]
  | .enc => [writeEvent Config.addrCMD Config.codeENC]
  | .dec => [writeEvent Config.addrCMD Config.codeDEC]
  | .reset => [.reset]
  | .sets r bytes => writeRun r.base bytes ++ [writeEvent r.lenAddr (BitVec.ofNat 8 bytes.length)]
  | .setseq b => [writeEvent Config.addrSEQ b]
  | .loadf n bytes => writeRun Config.baseFB bytes ++ [writeEvent Config.addrFBL (BitVec.ofNat 8 (min n 255))]
  | .rds r => readEvent r.lenAddr :: readRun r.base r.size
  | .rdck => readRun Config.baseCK 3
  | .rdst => [readEvent Config.addrSTATUS]
  | .rdf => readEvent Config.addrFBL :: readRun Config.baseFB Config.frameSize

end Sys2Proof.Machine
end

