-- ==== Sys2Proof/Safety.lean ====
section
/-! DEFINITION. What a proper resting state is (the invariants of spec/10 R23, the STATUS values of spec/10 R20), and the
spec's descriptions of a frame's fields in the terms claims use, written without the helpers of spec/00 R8. -/

namespace Sys2Proof.Machine

/-- The state invariants of spec/10 R23. `SEQ` in {0, 1} holds by its width. -/
structure State.Inv (s : State) : Prop where
  shl_le : s.shl.toNat ≤ 16
  spl_le : s.spl.toNat ≤ 6
  dhl_le : s.dhl.toNat ≤ 16
  dpl_le : s.dpl.toNat ≤ 6
  pll_le : s.pll.toNat ≤ 16
  status_high : s.status.extractLsb' 4 4 = 0#4
  cause_zero : s.err = 0#1 → s.cause = 0#3

/-- "The values the byte can take are 0x00, 0x03, 0x05, 0x07, 0x09 and 0x0F" (spec/10 R20). -/
abbrev State.StatusLegal (s : State) : Prop :=
  s.status ∈ [0x00#8, 0x03#8, 0x05#8, 0x07#8, 0x09#8, 0x0F#8]

/-- `v[k]`, for `k` below the array's size. -/
def byteAt {W : Nat} (v : Vector Byte W) (k : Nat) : Byte := v[k]?.getD 0x00#8

/-- The `W` bytes of `v` from `off` on hold a text of length `L` followed by the fill byte `P`: the bytes from `L` on are
fill, and the last byte of the text is not (spec/42 R98, R99). -/
abbrev TextOf {N : Nat} (v : Vector Byte N) (off W : Nat) (P : Byte) (L : Nat) : Prop :=
  L ≤ W ∧ (∀ i < W, L ≤ i → byteAt v (off + i) = P) ∧ (0 < L → byteAt v (off + L - 1) ≠ P)

/-- The six bytes of `v` from `off` on are a port of `L` digits: "1 to 6 ASCII digits (0x30 to 0x39) starting at" the
first byte, "followed only by spaces (0x20)" (spec/42 R93). -/
abbrev PortOf {N : Nat} (v : Vector Byte N) (off L : Nat) : Prop :=
  1 ≤ L ∧ L ≤ 6 ∧ (∀ i < L, 0x30#8 ≤ byteAt v (off + i) ∧ byteAt v (off + i) ≤ 0x39#8)
    ∧ ∀ i < 6, L ≤ i → byteAt v (off + i) = 0x20#8

/-- The six bytes of `v` from `off` on pass the port check. -/
abbrev NumericPort {N : Nat} (v : Vector Byte N) (off : Nat) : Prop := ∃ L < 7, PortOf v off L

/-- The sequence byte of the frame is '0' or '1' (spec/42 R95). -/
abbrev GoodSeqByte (f : Vector Byte 54) : Prop := byteAt f 44 = 0x30#8 ∨ byteAt f 44 = 0x31#8

/-- The frame buffer holds a frame that no check of DEC refuses (spec/30 R58). -/
structure State.Decodable (s : State) : Prop where
  length : s.fbl = 54#8
  srcPort : NumericPort s.fb 16
  dstPort : NumericPort s.fb 38
  seqByte : GoodSeqByte s.fb

/-- The ports in the F registers are "1 to 6 ASCII digits" (spec/41 R87), in a state that meets spec/10 R23. -/
structure State.PortsNumeric (s : State) : Prop where
  inv : s.Inv
  srcPort : 1 ≤ s.spl.toNat ∧ ∀ i < s.spl.toNat, 0x30#8 ≤ byteAt s.sp i ∧ byteAt s.sp i ≤ 0x39#8
  dstPort : 1 ≤ s.dpl.toNat ∧ ∀ i < s.dpl.toNat, 0x30#8 ≤ byteAt s.dp i ∧ byteAt s.dp i ≤ 0x39#8

/-- The F registers hold the strings of a frame that survives a round trip (spec/41 R87): besides numeric ports, hosts
that do not end in a space and a payload of at most six bytes that does not end in 0x00. -/
structure State.RoundTrips (s : State) : Prop extends s.PortsNumeric where
  srcHost : 0 < s.shl.toNat → byteAt s.sh (s.shl.toNat - 1) ≠ 0x20#8
  dstHost : 0 < s.dhl.toNat → byteAt s.dh (s.dhl.toNat - 1) ≠ 0x20#8
  payload_le : s.pll.toNat ≤ 6
  payload_end : 0 < s.pll.toNat → byteAt s.pl (s.pll.toNat - 1) ≠ 0x00#8

/-- The six bytes of the frame's payload field (spec/30 R51). -/
def payloadField (f : Vector Byte 54) : List Byte := (List.range 6).map fun i => byteAt f (48 + i)

/-- The reserved addresses of spec/20 R32. -/
abbrev ReservedAddr (a : Byte) : Prop :=
  a = 0x16#8 ∨ a = 0x17#8 ∨ a = 0x2E#8 ∨ a = 0x2F#8 ∨ (0x4D#8 ≤ a ∧ a ≤ 0x7F#8) ∨ 0xB6#8 ≤ a

/-- The addresses a plain write of which is ignored: the read-only ones (CK, LAST, STATUS) and the reserved ones
(spec/43 R106). -/
abbrev IgnoredAddr (a : Byte) : Prop := (0x46#8 ≤ a ∧ a ≤ 0x4A#8) ∨ ReservedAddr a

/-- The ASCII digit of `k` below ten: "the byte 0x30 + k" (spec/40 R78). -/
abbrev ascii (k : Nat) : Byte := BitVec.ofNat 8 (0x30 + k)

/-- The terminator is in the supplied payload (spec/10 R22): `PL[i] == 46` for an `i < PLL`. -/
abbrev State.HoldsTerminator (s : State) : Prop := ∃ i < s.pll.toNat, byteAt s.pl i = 46#8

/-- The terminator is among the six bytes of the frame's payload field (spec/42 R90, `isLastMessage`). -/
abbrev FieldHoldsTerminator (f : Vector Byte 54) : Prop := ∃ i < 6, byteAt f (48 + i) = 46#8

/-- The number that three ASCII digits write (spec/40 R74: "the decimal value of the three digits"). -/
def codeNumber (code : Vector Byte 3) : Nat :=
  100 * (code[0].toNat - 0x30) + 10 * (code[1].toNat - 0x30) + (code[2].toNat - 0x30)

/-- The number that a sequence of ASCII digits writes in base ten, most significant digit first (spec/00 R9). -/
def decimalValue (d : List Byte) : Nat := d.foldl (fun n b => 10 * n + (b.toNat - 0x30)) 0

end Sys2Proof.Machine
end

