-- ==== Sys2Proof/Certificates/Slice0/Obligations.lean ====
section
/-! DEFINITION. The statements about the FC54 frame codec for the provers. Each docstring names the rule of spec/ it
formalises. `script` and `reply` are the model's own fields (log entries 1 and 2). -/

open Sys2Proof Sys2Proof.Machine

/-! ## Reset, invariants, the step -/

/-- spec/10 R27 (decision D23): after reset every register is zero, LAST is 0 and CMD reads 0x00. -/
def Obligations.ResetIsAllZero : Prop :=
  (∀ i < 16, byteAt State.reset.sh i = 0#8 ∧ byteAt State.reset.dh i = 0#8 ∧ byteAt State.reset.pl i = 0#8)
    ∧ (∀ i < 6, byteAt State.reset.sp i = 0#8 ∧ byteAt State.reset.dp i = 0#8)
    ∧ State.reset.shl = 0#8 ∧ State.reset.spl = 0#8 ∧ State.reset.dhl = 0#8 ∧ State.reset.dpl = 0#8
    ∧ State.reset.seq = 0#1 ∧ (∀ i < 3, byteAt State.reset.ck i = 0#8) ∧ State.reset.pll = 0#8
    ∧ (∀ i < 54, byteAt State.reset.fb i = 0#8) ∧ State.reset.fbl = 0#8
    ∧ State.reset.status = 0x00#8 ∧ State.reset.err = 0#1 ∧ State.reset.cause = 0#3
    ∧ State.reset.last = 0#1 ∧ State.reset.read 0x4C#8 = 0x00#8

/-- The invariants of spec/10 R23 (an inference the spec marks) and the STATUS values of spec/10 R20 hold at reset. -/
def Obligations.ResetMeetsStateInvariants : Prop := State.reset.Inv ∧ State.reset.StatusLegal

/-- spec/10 R23 (an inference the spec marks): every step keeps the state invariants. -/
def Obligations.StepKeepsStateInvariants : Prop :=
  ∀ s t : State, s.Inv → step s = .next t → t.Inv

/-- From the sentence of spec/10 R20 "The values the byte can take are 0x00, 0x03, 0x05, 0x07, 0x09 and 0x0F": every
step keeps STATUS among them, whatever the other registers hold. -/
def Obligations.StepKeepsStatusLegal : Prop :=
  ∀ s t : State, s.StatusLegal → step s = .next t → t.StatusLegal

/-- spec/70 R130 (decision D23): from any state whatever, the reset event gives the all-zero state; what the host will
apply after it stays (the model's own field, log entry 1). -/
def Obligations.ResetEventGivesAllZero : Prop :=
  ∀ (s : State) (rest : List HostEvent), s.script = .reset :: rest →
    step s = .next
      { sh := Vector.replicate 16 0#8, shl := 0#8, sp := Vector.replicate 6 0#8, spl := 0#8
        dh := Vector.replicate 16 0#8, dhl := 0#8, dp := Vector.replicate 6 0#8, dpl := 0#8
        seq := 0#1, ck := Vector.replicate 3 0#8, pl := Vector.replicate 16 0#8, pll := 0#8
        fb := Vector.replicate 54 0#8, fbl := 0#8, status := 0x00#8, script := rest, reply := none }

/-- spec/43 R108 (an inference the spec marks): a step whose event is a word runs the transaction the word decodes to; so
does one whose event is a well-formed transaction's word. The event leaves the host's stream and no byte is returned but
by a read (the model's own fields, log entries 1 and 2). -/
def Obligations.StepRunsDecodedTransaction : Prop :=
  ∀ (s : State) (rest : List HostEvent),
    (∀ w, s.script = .word w :: rest → step s = exec (decode w) { s with script := rest, reply := none })
    ∧ ∀ i : Instr, i.WellFormed → s.script = .word (encode i) :: rest →
        step s = exec i { s with script := rest, reply := none }

/-- spec/43 R108, spec/60 R121, spec/70 R147 (inferences the spec marks): every step from every state answers a next
state; nothing stops the block. -/
def Obligations.StepAlwaysAnswersNext : Prop :=
  ∀ s : State, ∃ t, step s = .next t

/-- spec/60 R127, "the block is idle between transactions and holds its state": with nothing to apply, the step changes
nothing. That an idle block answers a step at all is the model's choice (log entry 10). -/
def Obligations.IdleBlockHoldsState : Prop :=
  ∀ s : State, s.script = [] → step s = .next s

/-- The model's own convention (log entries 1 and 6): a word the table decoder reads, placed with `withFetchWord`, is the
transaction the next step runs. -/
def Obligations.PlacedWordRunsNext : Prop :=
  ∀ (s : State) (nbits w : Nat) (i : Instr), decodeTableWord nbits w = some i →
    step (s.withFetchWord nbits w) = exec i { s with reply := none }

/-! ## Encodings -/

/-- spec/30 R53 to R55: decoding a well-formed transaction's word gives it back, every operand at every value. -/
def Obligations.DecodeOfEncode : Prop :=
  ∀ i : Instr, i.WellFormed → decode (encode i) = i

/-- spec/30 R53 to R56: every word decodes to a well-formed transaction, whose word is the word itself for a write, and
the word with its ignored bits 7:0 cleared for a read (log entry 8). -/
def Obligations.EncodeOfDecode : Prop :=
  ∀ w : TxWord, (decode w).WellFormed
    ∧ (w.getLsbD 16 = true → encode (decode w) = w)
    ∧ (w.getLsbD 16 = false → encode (decode w) = w &&& 0x1FF00#17)

/-- spec/30 R56 (an inference the spec marks): every word matches a row of the opcode table, and the first row that
matches is the decoded transaction's. -/
def Obligations.DecodeTakesFirstMatchingRow : Prop :=
  ∀ w : TxWord, ∃ r, firstRow w = some r ∧ r.mnemonic = (decode w).mnemonic

/-- spec/30 R55 (decision D4): a write to address 0x4C is the command its data byte codes; every other byte is the
illegal command. -/
def Obligations.CommandCodesDecode : Prop :=
  decode 0x14C01#17 = .cks ∧ decode 0x14C02#17 = .enc ∧ decode 0x14C03#17 = .dec
    ∧ ∀ d : Byte, d = 0x00#8 ∨ 0x04#8 ≤ d → decode (BitVec.ofNat 17 (0x14C00 + d.toNat)) = .illcmd d

/-- spec/30 R54 (decision D4): a word with bit 16 clear is a read of its address whatever its bits 7:0; one with bit 16
set is a write of its data to its address, but for the command address. -/
def Obligations.TransactionKindsDecode : Prop :=
  (∀ a z : Byte, decode (BitVec.ofNat 17 (a.toNat * 256 + z.toNat)) = .hrd a)
    ∧ ∀ a d : Byte, a ≠ 0x4C#8 → decode (BitVec.ofNat 17 (0x10000 + a.toNat * 256 + d.toNat)) = .hwr a d

/-- Words of spec/95 section 3.5 and of the rules' examples, one for every row of the opcode table. -/
def Obligations.SampleWordsDecode : Prop :=
  decode 0x14C01#17 = .cks ∧ decode 0x14C02#17 = .enc ∧ decode 0x14C03#17 = .dec ∧ decode 0x14C00#17 = .illcmd 0x00#8
    ∧ decode 0x14C04#17 = .illcmd 0x04#8 ∧ decode 0x140FF#17 = .hwr 0x40#8 0xFF#8
    ∧ decode 0x13048#17 = .hwr 0x30#8 0x48#8 ∧ decode 0x0AD00#17 = .hrd 0xAD#8 ∧ decode 0x04C00#17 = .hrd 0x4C#8

/-! ## Host reads -/

/-- spec/43 R105 (decisions D3, D22): a read of each address returns the byte the register map gives there, and no
register changes. -/
def Obligations.HrdReturnsMappedByte : Prop :=
  ∀ s : State,
    (∀ i < 16, exec (.hrd (BitVec.ofNat 8 (0x00 + i))) s = .next { s with reply := some (byteAt s.sh i) })
    ∧ (∀ i < 6, exec (.hrd (BitVec.ofNat 8 (0x10 + i))) s = .next { s with reply := some (byteAt s.sp i) })
    ∧ (∀ i < 16, exec (.hrd (BitVec.ofNat 8 (0x18 + i))) s = .next { s with reply := some (byteAt s.dh i) })
    ∧ (∀ i < 6, exec (.hrd (BitVec.ofNat 8 (0x28 + i))) s = .next { s with reply := some (byteAt s.dp i) })
    ∧ (∀ i < 16, exec (.hrd (BitVec.ofNat 8 (0x30 + i))) s = .next { s with reply := some (byteAt s.pl i) })
    ∧ exec (.hrd 0x40#8) s = .next { s with reply := some s.shl }
    ∧ exec (.hrd 0x41#8) s = .next { s with reply := some s.spl }
    ∧ exec (.hrd 0x42#8) s = .next { s with reply := some s.dhl }
    ∧ exec (.hrd 0x43#8) s = .next { s with reply := some s.dpl }
    ∧ exec (.hrd 0x44#8) s = .next { s with reply := some s.pll }
    ∧ exec (.hrd 0x45#8) s = .next { s with reply := some (if s.seq = 1#1 then 0x01#8 else 0x00#8) }
    ∧ (∀ i < 3, exec (.hrd (BitVec.ofNat 8 (0x46 + i))) s = .next { s with reply := some (byteAt s.ck i) })
    ∧ (s.pll.toNat ≤ 16 →
        exec (.hrd 0x49#8) s = .next { s with reply := some (if s.HoldsTerminator then 0x01#8 else 0x00#8) })
    ∧ exec (.hrd 0x4A#8) s = .next { s with reply := some s.status }
    ∧ exec (.hrd 0x4B#8) s = .next { s with reply := some s.fbl }
    ∧ exec (.hrd 0x4C#8) s = .next { s with reply := some 0x00#8 }
    ∧ (∀ i < 54, exec (.hrd (BitVec.ofNat 8 (0x80 + i))) s = .next { s with reply := some (byteAt s.fb i) })
    ∧ ∀ a, ReservedAddr a → exec (.hrd a) s = .next { s with reply := some 0x00#8 }

/-- spec/20 R32 (decision D22): a read of a reserved address returns 0x00, a write is ignored, and neither changes any
register. -/
def Obligations.ReservedAddressesInert : Prop :=
  ∀ (s : State) (a d : Byte), ReservedAddr a →
    exec (.hrd a) s = .next { s with reply := some 0x00#8 } ∧ exec (.hwr a d) s = .next s

/-- spec/10 R22 (decision D28): LAST reads 1 exactly when a byte of the supplied payload is 46, 0 otherwise; no command
and no write stores it (two states with the same PL and PLL read the same). -/
def Obligations.LastIsViewOfPayload : Prop :=
  (∀ s : State, s.pll.toNat ≤ 16 →
    (s.HoldsTerminator → exec (.hrd 0x49#8) s = .next { s with reply := some 0x01#8 })
    ∧ (¬ s.HoldsTerminator → exec (.hrd 0x49#8) s = .next { s with reply := some 0x00#8 })
    ∧ (s.last = 1#1 ↔ s.HoldsTerminator))
  ∧ ∀ s t : State, t.pl = s.pl → t.pll = s.pll → t.last = s.last

/-! ## Host writes and command dispatch -/

/-- spec/43 R106 (decisions D3, D8, D14, D22): a write of each address changes the one register named and nothing else;
length registers clamp, SEQ keeps bit 0; at 0x4C the command coded by the byte runs; every other address ignores it. -/
def Obligations.HwrWritesNamedRegister : Prop :=
  ∀ (s : State) (d : Byte),
    (∀ (i : Nat) (h : i < 16), exec (.hwr (BitVec.ofNat 8 (0x00 + i)) d) s = .next { s with sh := s.sh.set i d h })
    ∧ (∀ (i : Nat) (h : i < 6), exec (.hwr (BitVec.ofNat 8 (0x10 + i)) d) s = .next { s with sp := s.sp.set i d h })
    ∧ (∀ (i : Nat) (h : i < 16), exec (.hwr (BitVec.ofNat 8 (0x18 + i)) d) s = .next { s with dh := s.dh.set i d h })
    ∧ (∀ (i : Nat) (h : i < 6), exec (.hwr (BitVec.ofNat 8 (0x28 + i)) d) s = .next { s with dp := s.dp.set i d h })
    ∧ (∀ (i : Nat) (h : i < 16), exec (.hwr (BitVec.ofNat 8 (0x30 + i)) d) s = .next { s with pl := s.pl.set i d h })
    ∧ exec (.hwr 0x40#8 d) s = .next { s with shl := if d ≤ 16#8 then d else 16#8 }
    ∧ exec (.hwr 0x41#8 d) s = .next { s with spl := if d ≤ 6#8 then d else 6#8 }
    ∧ exec (.hwr 0x42#8 d) s = .next { s with dhl := if d ≤ 16#8 then d else 16#8 }
    ∧ exec (.hwr 0x43#8 d) s = .next { s with dpl := if d ≤ 6#8 then d else 6#8 }
    ∧ exec (.hwr 0x44#8 d) s = .next { s with pll := if d ≤ 16#8 then d else 16#8 }
    ∧ exec (.hwr 0x45#8 d) s = .next { s with seq := if d.getLsbD 0 then 1#1 else 0#1 }
    ∧ exec (.hwr 0x4B#8 d) s = .next { s with fbl := d }
    ∧ (∀ (i : Nat) (h : i < 54), exec (.hwr (BitVec.ofNat 8 (0x80 + i)) d) s = .next { s with fb := s.fb.set i d h })
    ∧ (∀ a, IgnoredAddr a → exec (.hwr a d) s = .next s)
    ∧ exec (.hwr 0x4C#8 0x01#8) s = exec .cks s ∧ exec (.hwr 0x4C#8 0x02#8) s = exec .enc s
    ∧ exec (.hwr 0x4C#8 0x03#8) s = exec .dec s
    ∧ (d = 0x00#8 ∨ 0x04#8 ≤ d → exec (.hwr 0x4C#8 d) s = .next { s with status := 0x0F#8 })

/-- From spec/20 R36: a plain write completes, every other address reads as before (LAST apart, when PL or PLL is
written), and the address itself reads as the register map's notes say (spec/20 R31). -/
def Obligations.WriteChangesOnlyItsAddress : Prop :=
  ∀ (s : State) (a d : Byte), a ≠ 0x4C#8 → ∃ t, exec (.hwr a d) s = .next t
    ∧ (∀ b : Byte, b ≠ a → b ≠ 0x49#8 → t.read b = s.read b)
    ∧ (¬ (0x30#8 ≤ a ∧ a ≤ 0x3F#8) → a ≠ 0x44#8 → t.read 0x49#8 = s.read 0x49#8)
    ∧ t.read a =
        if IgnoredAddr a then s.read a
        else if a = 0x40#8 ∨ a = 0x42#8 ∨ a = 0x44#8 then (if d ≤ 16#8 then d else 16#8)
        else if a = 0x41#8 ∨ a = 0x43#8 then (if d ≤ 6#8 then d else 6#8)
        else if a = 0x45#8 then d &&& 0x01#8
        else d

/-- spec/43 R107 (decisions D4, D21): as one step with the write itself, a write to address 0x4C runs the command its
byte codes, and raises IllegalCommand for every other byte; nothing is stored at 0x4C, which still reads 0x00. -/
def Obligations.CommandWriteRunsCommand : Prop :=
  ∀ (s : State) (d : Byte) (rest : List HostEvent), s.script = .word (BitVec.ofNat 17 (0x14C00 + d.toNat)) :: rest →
    (d = 0x01#8 → step s = exec .cks { s with script := rest, reply := none })
    ∧ (d = 0x02#8 → step s = exec .enc { s with script := rest, reply := none })
    ∧ (d = 0x03#8 → step s = exec .dec { s with script := rest, reply := none })
    ∧ (d = 0x00#8 ∨ 0x04#8 ≤ d → step s = .next { s with script := rest, reply := none, status := 0x0F#8 })
    ∧ ∀ t : State, step s = .next t → t.read 0x4C#8 = 0x00#8

/-! ## Exceptions and STATUS -/

/-- spec/60 R118 (decision D21): the illegal command records cause 7 with ERR = 1, and changes nothing else. -/
def Obligations.IllegalCommandRecordsCauseSeven : Prop :=
  ∀ (s : State) (d : Byte), d ≠ 0x01#8 → d ≠ 0x02#8 → d ≠ 0x03#8 →
    exec (.illcmd d) s = .next { s with status := 0x0F#8 }
    ∧ ∀ t, exec (.illcmd d) s = .next t → t.err = 1#1 ∧ t.cause = 7#3

/-- spec/60 R119 (decision D20): a raise writes STATUS with (c << 1) | 1, for an illegal command 0x0F, and nothing
else. -/
def Obligations.RaiseWritesStatusOnly : Prop :=
  ∀ s : State,
    s.raise .length = { s with status := 0x03#8 } ∧ s.raise .srcPort = { s with status := 0x05#8 }
    ∧ s.raise .dstPort = { s with status := 0x07#8 } ∧ s.raise .seq = { s with status := 0x09#8 }
    ∧ s.raise .illegalCmd = { s with status := 0x0F#8 }
    ∧ ∀ c : Cause, (s.raise c).status = (c.code.setWidth 8 <<< 1) ||| 1#8 ∧ (s.raise c).err = 1#1
        ∧ (s.raise c).cause = c.code

/-- spec/60 R115: FrameFormatError is raised only by DEC (causes 1 to 4) and IllegalCommand only by a write of an
undefined code (cause 7); CKS and ENC end with ERR = 0, and HRD and plain HWR leave STATUS alone. -/
def Obligations.OnlyDecAndIllegalCodesRaise : Prop :=
  ∀ s : State,
    (∃ t, exec .cks s = .next t ∧ t.err = 0#1)
    ∧ (∃ t, exec .enc s = .next t ∧ t.err = 0#1)
    ∧ (∀ a, ∃ t, exec (.hrd a) s = .next t ∧ t.status = s.status)
    ∧ (∀ a d, a ≠ 0x4C#8 → ∃ t, exec (.hwr a d) s = .next t ∧ t.status = s.status)
    ∧ (∃ t, exec .dec s = .next t
        ∧ (t.status = 0x00#8 ∨ (t.err = 1#1 ∧ t.cause ∈ [1#3, 2#3, 3#3, 4#3])))
    ∧ ∀ d, ¬ isCommandCode d → ∃ t, exec (.illcmd d) s = .next t ∧ t.err = 1#1 ∧ t.cause = 7#3

/-- From spec/60 R119, "Errors are precise: the state is exactly the state before the failing command, plus the new
STATUS": over all well-formed transactions, one that leaves ERR = 1 where it wrote STATUS changed STATUS only. -/
def Obligations.ErrorsArePrecise : Prop :=
  ∀ (i : Instr) (s t : State), i.WellFormed → exec i s = .next t → t.err = 1#1 → t.status ≠ s.status →
    t = { s with status := t.status }

/-- spec/10 R28 (an inference the spec marks): every well-formed transaction leaves every register alone that the
summary table does not let it write. -/
def Obligations.RegistersWrittenOnlyByTheirWriters : Prop :=
  ∀ (i : Instr) (s t : State), i.WellFormed → exec i s = .next t →
    t.script = s.script
    ∧ (t.reply ≠ s.reply → ∃ a, i = .hrd a)
    ∧ (t.status ≠ s.status → i = .cks ∨ i = .enc ∨ i = .dec ∨ ∃ d, i = .illcmd d)
    ∧ (t.ck ≠ s.ck → i = .cks ∨ i = .enc ∨ i = .dec)
    ∧ (t.fb ≠ s.fb → i = .enc ∨ ∃ a d, i = .hwr a d ∧ 0x80#8 ≤ a ∧ a ≤ 0xB5#8)
    ∧ (t.fbl ≠ s.fbl → i = .enc ∨ ∃ d, i = .hwr 0x4B#8 d)
    ∧ (t.sh ≠ s.sh → i = .dec ∨ ∃ a d, i = .hwr a d ∧ a ≤ 0x0F#8)
    ∧ (t.sp ≠ s.sp → i = .dec ∨ ∃ a d, i = .hwr a d ∧ 0x10#8 ≤ a ∧ a ≤ 0x15#8)
    ∧ (t.dh ≠ s.dh → i = .dec ∨ ∃ a d, i = .hwr a d ∧ 0x18#8 ≤ a ∧ a ≤ 0x27#8)
    ∧ (t.dp ≠ s.dp → i = .dec ∨ ∃ a d, i = .hwr a d ∧ 0x28#8 ≤ a ∧ a ≤ 0x2D#8)
    ∧ (t.pl ≠ s.pl → i = .dec ∨ ∃ a d, i = .hwr a d ∧ 0x30#8 ≤ a ∧ a ≤ 0x3F#8)
    ∧ (t.shl ≠ s.shl → i = .dec ∨ ∃ d, i = .hwr 0x40#8 d)
    ∧ (t.spl ≠ s.spl → i = .dec ∨ ∃ d, i = .hwr 0x41#8 d)
    ∧ (t.dhl ≠ s.dhl → i = .dec ∨ ∃ d, i = .hwr 0x42#8 d)
    ∧ (t.dpl ≠ s.dpl → i = .dec ∨ ∃ d, i = .hwr 0x43#8 d)
    ∧ (t.pll ≠ s.pll → i = .dec ∨ ∃ d, i = .hwr 0x44#8 d)
    ∧ (t.seq ≠ s.seq → i = .dec ∨ ∃ d, i = .hwr 0x45#8 d)

/-- From spec/20 R36 (an inference the spec marks): every transaction, issued twice with nothing between, leaves the
state it left the first time. -/
def Obligations.RepeatedTransactionChangesNothing : Prop :=
  ∀ (i : Instr) (s : State), ∃ t, exec i s = .next t ∧ exec i t = .next t

/-! ## The checksum -/

/-- spec/00 R9 (decision D12): `decstr` is the number's ASCII decimal text, most significant digit first, no leading
zero, "0" for 0, with as many characters as the number has digits. -/
def Obligations.DecimalTextOfNumber : Prop :=
  decstr 0 = [0x30#8]
    ∧ ∀ n : Nat, (∀ b ∈ decstr n, 0x30#8 ≤ b ∧ b ≤ 0x39#8) ∧ decimalValue (decstr n) = n
      ∧ (0 < n → (decstr n).head? ≠ some 0x30#8)
      ∧ ∀ k : Nat, 10 ^ k ≤ n → n < 10 ^ (k + 1) → (decstr n).length = k + 1

/-- spec/40 R70 to R72 (decisions D5, D9): the sum of a payload adds the unsigned value of every byte, is exact, does not
depend on the order of the bytes, and fits the accumulator for at most 16 bytes. -/
def Obligations.ByteSumIsExactUnsigned : Prop :=
  (∀ p : List Byte, byteSum p = ∑ i : Fin p.length, p[i].toNat)
    ∧ (∀ p q : List Byte, p.Perm q → byteSum p = byteSum q)
    ∧ (∀ p : List Byte, p.length ≤ 16 → byteSum p ≤ 4080 ∧ byteSum p < 2 ^ 12)
    ∧ (∀ p : List Byte, p.length ≤ 6 → byteSum p ≤ 1530)
    ∧ byteSum (List.replicate 16 0xFF#8) = 4080 ∧ byteSum (List.replicate 6 0xFF#8) = 1530

/-- spec/40 R73 (decisions D10, D11): the code of a payload by the number of digits of its sum, for a payload of any
length; always three ASCII digits. -/
def Obligations.ChecksumCodeByDigitCount : Prop :=
  ∀ p : List Byte,
    (∀ a b c : Byte, ∀ r : List Byte, decstr (byteSum p) = a :: b :: c :: r → r ≠ [] → cks p = #v[a, b, 0x30#8])
    ∧ (∀ a b c : Byte, decstr (byteSum p) = [a, b, c] → cks p = #v[a, b, c])
    ∧ (∀ a b : Byte, decstr (byteSum p) = [a, b] → cks p = #v[a, b, 0x30#8])
    ∧ (∀ a : Byte, decstr (byteSum p) = [a] → cks p = #v[a, 0x30#8, 0x30#8])
    ∧ ∀ i < 3, 0x30#8 ≤ byteAt (cks p) i ∧ byteAt (cks p) i ≤ 0x39#8

/-- spec/40 R74 (an inference the spec marks): the code, read as a number, by ranges of the sum. -/
def Obligations.ChecksumCodeByRange : Prop :=
  ∀ p : List Byte,
    (byteSum p < 10 → codeNumber (cks p) = 100 * byteSum p)
    ∧ (10 ≤ byteSum p → byteSum p < 100 → codeNumber (cks p) = 10 * byteSum p)
    ∧ (100 ≤ byteSum p → byteSum p < 1000 → codeNumber (cks p) = byteSum p)
    ∧ (1000 ≤ byteSum p → byteSum p < 10000 → codeNumber (cks p) = 10 * (byteSum p / 100))
    ∧ (∀ k : Nat, 10 ^ k ≤ byteSum p / 10 → byteSum p / 10 < 10 ^ (k + 1) → 3 ≤ k →
        codeNumber (cks p) = 10 * (byteSum p / 10 ^ k))
    ∧ (¬ (100 ≤ byteSum p ∧ byteSum p ≤ 999) → 10 ∣ codeNumber (cks p))

/-- spec/40 R75 items 1 to 3 (an inference the spec marks): the code depends on the payload only through its sum; the
order of the bytes and 0x00 bytes do not matter. -/
def Obligations.ChecksumDependsOnSumOnly : Prop :=
  (∀ p q : List Byte, byteSum p = byteSum q → cks p = cks q)
    ∧ (∀ p q : List Byte, p.Perm q → cks p = cks q)
    ∧ (∀ (p : List Byte) (n : Nat), cks (p ++ List.replicate n 0x00#8) = cks p)
    ∧ ∀ p q : List Byte, cks (p ++ 0x00#8 :: q) = cks (p ++ q)

/-- spec/40 R75 items 4 and 5 (an inference the spec marks): which sums share a code. -/
def Obligations.ChecksumCollisions : Prop :=
  (∀ (p : List Byte) (a b : Nat), 1 ≤ a → a ≤ 9 → b ≤ 9 →
      byteSum p = 10 * a + b ∨ byteSum p = 100 * a + 10 * b ∨ byteSum p / 100 = 10 * a + b →
      cks p = #v[ascii a, ascii b, 0x30#8])
    ∧ (∀ (p : List Byte) (a : Nat), a ≤ 9 → byteSum p = a → cks p = #v[ascii a, 0x30#8, 0x30#8])
    ∧ ∀ p q : List Byte, 1000 ≤ byteSum p → 1000 ≤ byteSum q → byteSum p / 100 = byteSum q / 100 → cks p = cks q

/-- spec/40 R76 with the ranges of R74: CKS completes from every state; with `PLL` at most 16 it writes CK with the code
of the sum of PL[0..PLL-1] and STATUS with 0x00, and nothing else. -/
def Obligations.CksWritesCodeOfPayload : Prop :=
  encode .cks = 0x14C01#17
    ∧ (∀ s : State, ∃ t, exec .cks s = .next t)
    ∧ ∀ (s : State) (S : Nat), s.pll.toNat ≤ 16 → S = ∑ i ∈ Finset.range s.pll.toNat, (byteAt s.pl i).toNat →
      exec .cks s = .next
        { s with
          ck := if S < 10 then #v[ascii S, 0x30#8, 0x30#8]
            else if S < 100 then #v[ascii (S / 10), ascii (S % 10), 0x30#8]
            else if S < 1000 then #v[ascii (S / 100), ascii (S / 10 % 10), ascii (S % 10)]
            else #v[ascii (S / 1000), ascii (S / 100 % 10), 0x30#8]
          status := 0x00#8 }

/-! ## Encode -/

/-- spec/00 R8 (decisions D6 to D8, D15, D17): what `padR`, `stripR`, `isdigit` and `isnum` answer. -/
def Obligations.HelperFunctions : Prop :=
  (∀ (s : List Byte) (W : Nat) (P : Byte) (i : Nat), i < W →
      byteAt (padR s W P) i = if i < min s.length W then s.getD i 0#8 else P)
    ∧ (∀ (W : Nat) (f : Vector Byte W) (P : Byte),
        ((∀ i < W, byteAt f i = P) → stripR f P = 0)
        ∧ ∀ i < W, byteAt f i ≠ P → (∀ j < W, i < j → byteAt f j = P) → stripR f P = i + 1)
    ∧ (∀ b : Byte, isdigit b = true ↔ 0x30#8 ≤ b ∧ b ≤ 0x39#8)
    ∧ ∀ f : Vector Byte 6,
        isnum f = true ↔ 1 ≤ stripR f 0x20#8 ∧ ∀ i < stripR f 0x20#8, isdigit (byteAt f i) = true

/-- spec/41 R81 (decisions D6, D7): the 54 bytes of an encoded frame, field by field, for strings and payloads of any
length. -/
def Obligations.EncodeFrameLayout : Prop :=
  ∀ (sh sp dh dp p : List Byte) (q : BitVec 1),
    (∀ i < 16, byteAt (encodeFrame sh sp dh dp q p) i = sh.getD i 0x20#8)
    ∧ (∀ i < 6, byteAt (encodeFrame sh sp dh dp q p) (16 + i) = sp.getD i 0x20#8)
    ∧ (∀ i < 16, byteAt (encodeFrame sh sp dh dp q p) (22 + i) = dh.getD i 0x20#8)
    ∧ (∀ i < 6, byteAt (encodeFrame sh sp dh dp q p) (38 + i) = dp.getD i 0x20#8)
    ∧ byteAt (encodeFrame sh sp dh dp q p) 44 = (if q = 1#1 then 0x31#8 else 0x30#8)
    ∧ (∀ i < 3, byteAt (encodeFrame sh sp dh dp q p) (45 + i) = byteAt (cks p) i)
    ∧ ∀ i < 6, byteAt (encodeFrame sh sp dh dp q p) (48 + i) = p.getD i 0x00#8

/-- spec/41 R84: ENC completes from every state; in a state that meets spec/10 R23 it writes the 54 bytes of FB from the
F registers, FBL with 54, CK with the code of the whole supplied payload and STATUS with 0x00, and nothing else. -/
def Obligations.EncBuildsFrame : Prop :=
  encode .enc = 0x14C02#17
    ∧ (∀ s : State, ∃ t, exec .enc s = .next t)
    ∧ ∀ s : State, s.Inv → ∃ t, exec .enc s = .next t
      ∧ t = { s with fb := t.fb, fbl := 54#8, ck := cks (s.pl.toList.take s.pll.toNat), status := 0x00#8 }
      ∧ (∀ i < 16, byteAt t.fb i = if i < s.shl.toNat then byteAt s.sh i else 0x20#8)
      ∧ (∀ i < 6, byteAt t.fb (16 + i) = if i < s.spl.toNat then byteAt s.sp i else 0x20#8)
      ∧ (∀ i < 16, byteAt t.fb (22 + i) = if i < s.dhl.toNat then byteAt s.dh i else 0x20#8)
      ∧ (∀ i < 6, byteAt t.fb (38 + i) = if i < s.dpl.toNat then byteAt s.dp i else 0x20#8)
      ∧ byteAt t.fb 44 = (if s.seq = 1#1 then 0x31#8 else 0x30#8)
      ∧ (∀ i < 3, byteAt t.fb (45 + i) = byteAt (cks (s.pl.toList.take s.pll.toNat)) i)
      ∧ ∀ i < 6, byteAt t.fb (48 + i) = if i < s.pll.toNat then byteAt s.pl i else 0x00#8

/-- spec/41 R85 (an inference the spec marks): the frame and the code that ENC writes depend only on the eleven registers
it reads. -/
def Obligations.EncDependsOnElevenRegisters : Prop :=
  ∀ s s' : State, s.sh = s'.sh → s.shl = s'.shl → s.sp = s'.sp → s.spl = s'.spl → s.dh = s'.dh → s.dhl = s'.dhl →
    s.dp = s'.dp → s.dpl = s'.dpl → s.seq = s'.seq → s.pl = s'.pl → s.pll = s'.pll →
    ∃ t t', exec .enc s = .next t ∧ exec .enc s' = .next t' ∧ t.fb = t'.fb ∧ t.fbl = t'.fbl ∧ t.ck = t'.ck
      ∧ t.status = t'.status

/-- spec/30 R52 (an inference the spec marks): what every frame that ENC builds looks like. -/
def Obligations.EncodedFramesAreCanonical : Prop :=
  ∀ s : State, s.Inv → ∃ t, exec .enc s = .next t
    ∧ GoodSeqByte t.fb
    ∧ (∀ i < 3, 0x30#8 ≤ byteAt t.fb (45 + i) ∧ byteAt t.fb (45 + i) ≤ 0x39#8)
    ∧ (¬ (100 ≤ byteSum (s.pl.toList.take s.pll.toNat) ∧ byteSum (s.pl.toList.take s.pll.toNat) ≤ 999) →
        byteAt t.fb 47 = 0x30#8)
    ∧ ∀ i < 6, s.pll.toNat ≤ i → byteAt t.fb (48 + i) = 0x00#8

/-! ## Decode -/

/-- spec/42 R92 to R97 (decisions D14, D15, D18, D20): the first check that fails gives the cause, in the order length,
source port, destination port, sequence byte; STATUS is written and nothing else. -/
def Obligations.DecRaisesFirstFailingCheck : Prop :=
  ∀ s : State,
    (s.fbl ≠ 54#8 → exec .dec s = .next { s with status := 0x03#8 })
    ∧ (s.fbl = 54#8 → ¬ NumericPort s.fb 16 → exec .dec s = .next { s with status := 0x05#8 })
    ∧ (s.fbl = 54#8 → NumericPort s.fb 16 → ¬ NumericPort s.fb 38 →
        exec .dec s = .next { s with status := 0x07#8 })
    ∧ (s.fbl = 54#8 → NumericPort s.fb 16 → NumericPort s.fb 38 → ¬ GoodSeqByte s.fb →
        exec .dec s = .next { s with status := 0x09#8 })

/-- spec/42 R98 (decision D17): a DEC of a frame that passes every check writes every F register from the frame, with the
lengths of the texts, and STATUS with 0x00; FB and FBL stay, and the state invariants hold after it. -/
def Obligations.DecLoadsFrameRegisters : Prop :=
  encode .dec = 0x14C03#17
    ∧ ∀ s : State, s.Decodable → ∃ t, exec .dec s = .next t
      ∧ t.fb = s.fb ∧ t.fbl = s.fbl ∧ t.script = s.script ∧ t.reply = s.reply ∧ t.status = 0x00#8
      ∧ (∀ i < 16, byteAt t.sh i = byteAt s.fb i) ∧ TextOf s.fb 0 16 0x20#8 t.shl.toNat
      ∧ (∀ i < 6, byteAt t.sp i = byteAt s.fb (16 + i)) ∧ PortOf s.fb 16 t.spl.toNat
      ∧ (∀ i < 16, byteAt t.dh i = byteAt s.fb (22 + i)) ∧ TextOf s.fb 22 16 0x20#8 t.dhl.toNat
      ∧ (∀ i < 6, byteAt t.dp i = byteAt s.fb (38 + i)) ∧ PortOf s.fb 38 t.dpl.toNat
      ∧ t.seq = (if byteAt s.fb 44 = 0x31#8 then 1#1 else 0#1)
      ∧ (∀ i < 3, byteAt t.ck i = byteAt s.fb (45 + i))
      ∧ (∀ i < 6, byteAt t.pl i = byteAt s.fb (48 + i)) ∧ (∀ i < 16, 6 ≤ i → byteAt t.pl i = 0x00#8)
      ∧ TextOf s.fb 48 6 0x00#8 t.pll.toNat
      ∧ (∀ i < 16, t.shl.toNat ≤ i → byteAt t.sh i = 0x20#8) ∧ (∀ i < 16, t.dhl.toNat ≤ i → byteAt t.dh i = 0x20#8)
      ∧ (∀ i < 6, t.spl.toNat ≤ i → byteAt t.sp i = 0x20#8) ∧ (∀ i < 6, t.dpl.toNat ≤ i → byteAt t.dp i = 0x20#8)
      ∧ (∀ i < 16, t.pll.toNat ≤ i → byteAt t.pl i = 0x00#8)
      ∧ t.Inv

/-- spec/30 R58 (decision D16): DEC raises exactly when the length is not 54, a port is not numeric or the sequence byte
is neither '0' nor '1', and in no other case. -/
def Obligations.DecRefusesExactlyFourCases : Prop :=
  ∀ s : State, ∃ t, exec .dec s = .next t
    ∧ (t.err = 1#1 ↔
        s.fbl ≠ 54#8 ∨ ¬ NumericPort s.fb 16 ∨ ¬ NumericPort s.fb 38 ∨ ¬ GoodSeqByte s.fb)

/-- The last inference of spec/42 R90: after a DEC that completes, LAST says whether a byte of the frame's payload field
is the terminator. -/
def Obligations.LastAfterDecode : Prop :=
  ∀ s : State, s.Decodable → ∃ t, exec .dec s = .next t
    ∧ exec (.hrd 0x49#8) t = .next
        { t with reply := some (if FieldHoldsTerminator s.fb then 0x01#8 else 0x00#8) }

/-! ## Encode and decode together -/

/-- spec/41 R87 (an inference the spec marks): ENC then DEC brings a frame's strings, lengths and sequence bit back, fills
the register bytes beyond each length, leaves the payload's code in CK, and the frame verifies: CKS changes nothing. -/
def Obligations.EncThenDecRoundTrip : Prop :=
  ∀ s : State, s.RoundTrips → ∃ t u, exec .enc s = .next t ∧ exec .dec t = .next u
    ∧ u.status = 0x00#8
    ∧ u.shl = s.shl ∧ u.spl = s.spl ∧ u.dhl = s.dhl ∧ u.dpl = s.dpl ∧ u.pll = s.pll ∧ u.seq = s.seq
    ∧ (∀ i < 16, byteAt u.sh i = if i < s.shl.toNat then byteAt s.sh i else 0x20#8)
    ∧ (∀ i < 6, byteAt u.sp i = if i < s.spl.toNat then byteAt s.sp i else 0x20#8)
    ∧ (∀ i < 16, byteAt u.dh i = if i < s.dhl.toNat then byteAt s.dh i else 0x20#8)
    ∧ (∀ i < 6, byteAt u.dp i = if i < s.dpl.toNat then byteAt s.dp i else 0x20#8)
    ∧ (∀ i < 16, byteAt u.pl i = if i < s.pll.toNat then byteAt s.pl i else 0x00#8)
    ∧ u.ck = cks (s.pl.toList.take s.pll.toNat)
    ∧ exec .cks u = .next u

/-- spec/41 R87 (an inference the spec marks): DEC of a frame that decodes, then ENC, gives the same 54 bytes exactly when
the checksum field is the code of the payload field; otherwise only bytes 45 to 47 differ. -/
def Obligations.DecThenEncReproducesFrame : Prop :=
  ∀ s : State, s.Decodable → ∃ t u, exec .dec s = .next t ∧ exec .enc t = .next u
    ∧ (∀ i < 54, i < 45 ∨ 48 ≤ i → byteAt u.fb i = byteAt s.fb i)
    ∧ (∀ i < 3, byteAt u.fb (45 + i) = byteAt (cks (payloadField s.fb)) i)
    ∧ (u.fb = s.fb ↔ ∀ i < 3, byteAt s.fb (45 + i) = byteAt (cks (payloadField s.fb)) i)

/-- spec/42 R100 (an inference the spec marks): after a DEC that completes, CK is the carried code, and CKS computes the
code of the frame's six payload bytes. -/
def Obligations.CksAfterDecComputesFieldCode : Prop :=
  ∀ s : State, s.Decodable → ∃ t u, exec .dec s = .next t ∧ exec .cks t = .next u
    ∧ (∀ i < 3, byteAt t.ck i = byteAt s.fb (45 + i))
    ∧ u = { t with ck := cks (payloadField s.fb) }

/-- spec/41 R82, spec/42 R100, spec/70 R139 (inferences the spec marks): a frame made by ENC carries the code of the whole
supplied payload, while DEC and CKS compute that of its first six bytes; with at most six bytes the frame verifies. -/
def Obligations.CarriedAndComputedCodes : Prop :=
  ∀ s : State, s.PortsNumeric → ∃ t u v, exec .enc s = .next t ∧ exec .dec t = .next u ∧ exec .cks u = .next v
    ∧ u.status = 0x00#8
    ∧ u.ck = cks (s.pl.toList.take s.pll.toNat)
    ∧ v.ck = cks ((s.pl.toList.take s.pll.toNat).take 6)
    ∧ (s.pll.toNat ≤ 6 → v.ck = u.ck)

/-- spec/70 R138 and R140 (inferences the spec marks): with numeric ports, what ENC then DEC loses of the strings is
trailing spaces of the hosts, and of the payload what lies beyond six bytes and trailing 0x00 bytes; nothing else. -/
def Obligations.RoundTripLosesTrailingFillOnly : Prop :=
  ∀ s : State, s.PortsNumeric → ∃ t u, exec .enc s = .next t ∧ exec .dec t = .next u
    ∧ u.status = 0x00#8 ∧ u.seq = s.seq
    ∧ u.srcHost = s.srcHost.rdropWhile (· == 0x20#8) ∧ u.dstHost = s.dstHost.rdropWhile (· == 0x20#8)
    ∧ u.srcPort = s.srcPort ∧ u.dstPort = s.dstPort
    ∧ u.payload = (s.payload.take 6).rdropWhile (· == 0x00#8)

/-- From spec/41 R88: after a DEC that completes, ENC with any address registers builds a frame that echoes the received
payload field and sequence byte. -/
def Obligations.AckEchoesPayloadAndSequence : Prop :=
  ∀ s : State, s.Decodable → ∃ t, exec .dec s = .next t
    ∧ ∀ u : State, u.seq = t.seq → u.pl = t.pl → u.pll = t.pll → ∃ v, exec .enc u = .next v
      ∧ byteAt v.fb 44 = byteAt s.fb 44 ∧ ∀ i < 6, byteAt v.fb (48 + i) = byteAt s.fb (48 + i)

/-! ## Scripts -/

/-- From spec/30 R62 (decision D29) and spec/20 R39: running the transactions of `SETS r, bytes` puts the bytes in the
register's first places and their number in its length register; every other address but LAST reads as before. -/
def Obligations.SetsLoadsStringRegister : Prop :=
  ∀ (s : State) (r : StrReg) (bytes : List Byte) (rest : List HostEvent), bytes.length ≤ r.size →
    s.script = (ScriptLine.sets r bytes).events ++ rest →
    ∃ t : State, Host.Core.run Sys2Proof.core (bytes.length + 1) s = .next t
      ∧ t.script = rest ∧ t.reply = none
      ∧ (∀ (i : Nat) (h : i < bytes.length), t.read (r.base + BitVec.ofNat 8 i) = bytes[i])
      ∧ t.read r.lenAddr = BitVec.ofNat 8 bytes.length
      ∧ ∀ b : Byte, (∀ i < bytes.length, b ≠ r.base + BitVec.ofNat 8 i) → b ≠ r.lenAddr → b ≠ 0x49#8 →
          t.read b = s.read b

/-- From spec/30 R62 (decision D29), spec/10 R19 (decision D27) and spec/20 R39: running the transactions of `LOADF n`
puts the first `min(n, 54)` bytes in FB and `min(n, 255)` in FBL, and changes no other register. -/
def Obligations.LoadfLoadsFrameBuffer : Prop :=
  ∀ (s : State) (n : Nat) (bytes : List Byte) (rest : List HostEvent), bytes.length = min n 54 →
    s.script = (ScriptLine.loadf n bytes).events ++ rest →
    ∃ t : State, Host.Core.run Sys2Proof.core (bytes.length + 1) s = .next t
      ∧ t = { s with fb := t.fb, fbl := BitVec.ofNat 8 (min n 255), script := rest, reply := none }
      ∧ (∀ (i : Nat) (h : i < bytes.length), byteAt t.fb i = bytes[i])
      ∧ ∀ i < 54, bytes.length ≤ i → byteAt t.fb i = byteAt s.fb i
end

