-- ==== Sys2Proof/Laws/Bytes.lean ====
section
/-! SUPPORT. What the byte-sequence helpers of spec/00 R8 do, said once. -/

namespace Sys2Proof.Machine

/-! ## Reading one byte of an array -/

theorem byteAt_eq {W : Nat} (v : Vector Byte W) (k : Nat) (h : k < W) : byteAt v k = v[k] := by
  simp [byteAt, h]

@[simp] theorem getElem_padR (s : List Byte) (W : Nat) (P : Byte) (i : Nat) (h : i < W) :
    (padR s W P)[i] = s.getD i P := by
  simp [padR]

/-- Within the sequence, `padR` keeps its byte. -/
theorem byteAt_padR_lt {s : List Byte} {W i : Nat} (P : Byte) (hi : i < W) (hs : i < s.length) :
    byteAt (padR s W P) i = s[i] := by
  rw [byteAt_eq _ _ hi, getElem_padR]; simp [hs]

/-- From the sequence's end on, `padR` gives the fill byte. -/
theorem byteAt_padR_ge {s : List Byte} {W i : Nat} (P : Byte) (hi : i < W) (hs : s.length ≤ i) :
    byteAt (padR s W P) i = P := by
  rw [byteAt_eq _ _ hi, getElem_padR]; simp [hs]

/-- Bytes beyond the width do not matter. -/
theorem padR_take (s : List Byte) (W : Nat) (P : Byte) : padR (s.take W) W P = padR s W P := by
  ext i h
  simp [List.getD_eq_getElem?_getD, h]

@[simp] theorem getElem_slice (f : Vector Byte 54) (off W : Nat) (h : off + W ≤ 54) (i : Nat) (hi : i < W) :
    (slice f off W h)[i] = f[off + i] := by
  simp [slice]

theorem byteAt_slice (f : Vector Byte 54) (off W : Nat) (h : off + W ≤ 54) {i : Nat} (hi : i < W) :
    byteAt (slice f off W h) i = byteAt f (off + i) := by
  rw [byteAt_eq _ _ hi, byteAt_eq _ _ (by omega), getElem_slice]

theorem getElem_prefixOf {W : Nat} (v : Vector Byte W) (n : Byte) (i : Nat) (h : i < (prefixOf v n).length) :
    (prefixOf v n)[i] = byteAt v i := by
  have hW : i < W := by simp [prefixOf] at h; omega
  simp [prefixOf, byteAt_eq v i hW]

theorem length_prefixOf {W : Nat} (v : Vector Byte W) (n : Byte) :
    (prefixOf v n).length = min n.toNat W := by
  simp [prefixOf]

/-! ## Lengths -/

theorem toNat_clamp (v : Byte) (m : Nat) : (clamp v m).toNat = min v.toNat m := by
  have := v.isLt
  simp [clamp]; omega

theorem toNat_lengthByte {n : Nat} (h : n < 256) : (lengthByte n).toNat = n := by
  simpa [lengthByte] using h

/-! ## stripR -/

/-- The loop answers a bound below which nothing was stripped: what it passed over is fill, and it stopped at a byte
that is not. -/
theorem stripLoop_spec {W : Nat} (f : Vector Byte W) (P : Byte) (n : Nat) (hn : n ≤ W) :
    stripLoop f P n ≤ n ∧ (∀ i < n, stripLoop f P n ≤ i → byteAt f i = P)
      ∧ (0 < stripLoop f P n → byteAt f (stripLoop f P n - 1) ≠ P) := by
  induction n with
  | zero => simp [stripLoop]
  | succ n ih =>
    obtain ⟨hle, hfill, hlast⟩ := ih (by omega)
    have hget : f[n]? = some (byteAt f n) := by simp [byteAt, show n < W by omega]
    by_cases hP : byteAt f n = P
    · have hs : stripLoop f P (n + 1) = stripLoop f P n := by simp [stripLoop, hget, hP]
      rw [hs]
      refine ⟨by omega, fun i hi hs => ?_, hlast⟩
      rcases Nat.lt_succ_iff_lt_or_eq.mp hi with hi | rfl
      · exact hfill i hi hs
      · exact hP
    · have hs : stripLoop f P (n + 1) = n + 1 := by simp [stripLoop, hget, hP]
      rw [hs]
      exact ⟨le_refl _, fun i hi hs => by omega, fun _ => hP⟩

/-- `stripR` answers the length of the text. -/
theorem stripR_textOf {W : Nat} (f : Vector Byte W) (P : Byte) : TextOf f 0 W P (stripR f P) := by
  simpa [TextOf, stripR] using stripLoop_spec f P W (le_refl W)

/-- A field holds texts of one length only. -/
theorem TextOf.unique {N : Nat} {v : Vector Byte N} {off W : Nat} {P : Byte} {L L' : Nat}
    (h : TextOf v off W P L) (h' : TextOf v off W P L') : L = L' := by
  obtain ⟨hW, hfill, hlast⟩ := h
  obtain ⟨hW', hfill', hlast'⟩ := h'
  rcases Nat.lt_trichotomy L L' with hlt | heq | hgt
  · exact absurd (hfill (L' - 1) (by omega) (by omega)) (by
      simpa [show off + (L' - 1) = off + L' - 1 by omega] using hlast' (by omega))
  · exact heq
  · exact absurd (hfill' (L - 1) (by omega) (by omega)) (by
      simpa [show off + (L - 1) = off + L - 1 by omega] using hlast (by omega))

theorem stripR_eq_iff {W : Nat} (f : Vector Byte W) (P : Byte) (L : Nat) :
    stripR f P = L ↔ TextOf f 0 W P L :=
  ⟨fun h => h ▸ stripR_textOf f P, fun h => (stripR_textOf f P).unique h⟩

theorem stripR_le {W : Nat} (f : Vector Byte W) (P : Byte) : stripR f P ≤ W := (stripR_textOf f P).1

/-- A text of a slice is a text of the frame at the slice's offset. -/
theorem textOf_slice (f : Vector Byte 54) (off W : Nat) (h : off + W ≤ 54) (P : Byte) (L : Nat) :
    TextOf (slice f off W h) 0 W P L ↔ TextOf f off W P L := by
  have hb : ∀ i < W, byteAt (slice f off W h) (0 + i) = byteAt f (off + i) := fun i hi => by
    simpa using byteAt_slice f off W h hi
  refine and_congr_right fun hL => and_congr ?_ ?_
  · exact forall₂_congr fun i hi => by rw [hb i hi]
  · refine imp_congr_right fun hpos => ?_
    have := hb (L - 1) (by omega)
    rw [show 0 + L - 1 = 0 + (L - 1) by omega, show off + L - 1 = off + (L - 1) by omega, this]

theorem stripR_slice_eq_iff (f : Vector Byte 54) (off W : Nat) (h : off + W ≤ 54) (P : Byte) (L : Nat) :
    stripR (slice f off W h) P = L ↔ TextOf f off W P L := by
  rw [stripR_eq_iff, textOf_slice]

/-! ## isnum -/

theorem isdigit_iff (b : Byte) : isdigit b = true ↔ 0x30#8 ≤ b ∧ b ≤ 0x39#8 := by
  simp [isdigit]

/-- A digit is no space. -/
theorem ne_space_of_digit {b : Byte} (h : 0x30#8 ≤ b ∧ b ≤ 0x39#8) : b ≠ 0x20#8 := by
  rintro rfl
  exact absurd h.1 (by decide)

/-- A port of `L` digits is a text of length `L`. -/
theorem PortOf.textOf {N : Nat} {v : Vector Byte N} {off L : Nat} (h : PortOf v off L) :
    TextOf v off 6 0x20#8 L := by
  obtain ⟨h1, h6, hdig, hfill⟩ := h
  refine ⟨h6, hfill, fun _ => ?_⟩
  simpa [show off + L - 1 = off + (L - 1) by omega] using ne_space_of_digit (hdig (L - 1) (by omega))

/-- `isnum` passes exactly the ports: digits, then spaces. -/
theorem isnum_iff_portOf (f : Vector Byte 6) : isnum f = true ↔ PortOf f 0 (stripR f 0x20#8) := by
  have ht := stripR_textOf f 0x20#8
  have hmem : ((f.toList.take (stripR f 0x20#8)).all isdigit = true) ↔
      ∀ i < stripR f 0x20#8, 0x30#8 ≤ byteAt f (0 + i) ∧ byteAt f (0 + i) ≤ 0x39#8 := by
    rw [List.all_eq_true]
    constructor
    · intro h i hi
      have hi6 : i < 6 := lt_of_lt_of_le hi ht.1
      rw [Nat.zero_add, byteAt_eq f i hi6, ← isdigit_iff]
      apply h
      rw [List.mem_take_iff_getElem]
      exact ⟨i, by simpa using ⟨hi, hi6⟩, by simp⟩
    · intro h b hb
      rw [List.mem_take_iff_getElem] at hb
      obtain ⟨i, hi, rfl⟩ := hb
      have hi' : i < stripR f 0x20#8 ∧ i < 6 := by simpa using hi
      have := h i hi'.1
      rw [Nat.zero_add, byteAt_eq f i hi'.2] at this
      rw [isdigit_iff]
      simpa using this
  unfold isnum
  rw [Bool.and_eq_true, hmem, decide_eq_true_iff]
  exact ⟨fun h => ⟨h.1, ht.1, h.2, fun i hi hL => ht.2.1 i hi hL⟩, fun h => ⟨h.1, h.2.2.1⟩⟩

/-- The port check on a slice, in the frame's own terms. -/
theorem isnum_slice_iff (f : Vector Byte 54) (off : Nat) (h : off + 6 ≤ 54) :
    isnum (slice f off 6 h) = true ↔ NumericPort f off := by
  have hb : ∀ i < 6, byteAt (slice f off 6 h) (0 + i) = byteAt f (off + i) := fun i hi => by
    simpa using byteAt_slice f off 6 h hi
  have hport : ∀ L, PortOf (slice f off 6 h) 0 L ↔ PortOf f off L := by
    intro L
    refine and_congr_right fun _ => and_congr_right fun h6 => and_congr ?_ ?_
    · exact forall₂_congr fun i hi => by rw [hb i (by omega)]
    · exact forall₂_congr fun i hi => by rw [hb i hi]
  rw [isnum_iff_portOf, hport]
  constructor
  · exact fun hp => ⟨_, Nat.lt_succ_of_le hp.2.1, hp⟩
  · rintro ⟨L, -, hp⟩
    rwa [(stripR_slice_eq_iff f off 6 h 0x20#8 L).mpr hp.textOf]

end Sys2Proof.Machine
end

