-- ==== Sys2Proof/Laws/Checksum.lean ====
section
/-! SUPPORT. The decimal text of a number (spec/00 R9) and the byte sum (spec/40 R70), unfolded once. -/

namespace Sys2Proof.Machine

/-! ## decstr -/

theorem decDigits_succ (fuel n : Nat) :
    decDigits (fuel + 1) n = if n < 10 then [digit n] else decDigits fuel (n / 10) ++ [digit (n % 10)] := rfl

/-- Any fuel above the number gives the same digits. -/
theorem decDigits_fuel : ∀ fuel n : Nat, n < fuel → decDigits fuel n = decstr n := by
  intro fuel
  induction fuel using Nat.strong_induction_on with
  | _ fuel ih =>
    intro n hn
    obtain ⟨fuel, rfl⟩ : ∃ k, fuel = k + 1 := ⟨fuel - 1, by omega⟩
    rw [decstr, decDigits_succ, decDigits_succ]
    split
    · rfl
    · rcases Nat.lt_or_ge n fuel with h | h
      · rw [ih fuel (by omega) _ (by omega), ih n (by omega) _ (by omega)]
      · rw [show fuel = n by omega]

theorem decstr_of_lt {n : Nat} (h : n < 10) : decstr n = [digit n] := by
  rw [decstr, decDigits_succ, if_pos h]

theorem decstr_of_ge {n : Nat} (h : 10 ≤ n) : decstr n = decstr (n / 10) ++ [digit (n % 10)] := by
  rw [decstr, decDigits_succ, if_neg (by omega), decDigits_fuel _ _ (by omega)]

theorem decstr_ne_nil (n : Nat) : decstr n ≠ [] := by
  rcases Nat.lt_or_ge n 10 with h | h
  · simp [decstr_of_lt h]
  · simp [decstr_of_ge h]

theorem toNat_digit {k : Nat} (h : k < 10) : (digit k).toNat = 0x30 + k := by
  rw [digit, BitVec.toNat_ofNat]
  exact Nat.mod_eq_of_lt (by omega)

theorem isdigit_digit {k : Nat} (h : k < 10) : isdigit (digit k) = true := by
  rw [isdigit_iff, BitVec.le_def, BitVec.le_def, toNat_digit h]
  simp; omega

/-- Every character of a number's decimal text is an ASCII digit. -/
theorem isdigit_of_mem_decstr (n : Nat) : ∀ b ∈ decstr n, isdigit b = true := by
  induction n using Nat.strong_induction_on with
  | _ n ih =>
    rcases Nat.lt_or_ge n 10 with h | h
    · simpa [decstr_of_lt h] using isdigit_digit h
    · intro b hb
      rw [decstr_of_ge h, List.mem_append] at hb
      rcases hb with hb | hb
      · exact ih _ (by omega) b hb
      · rw [List.mem_singleton.mp hb]
        exact isdigit_digit (Nat.mod_lt _ (by decide))

/-! ## The text of numbers of up to four digits -/

theorem decstr_two {n : Nat} (h : 10 ≤ n) (h' : n < 100) : decstr n = [digit (n / 10), digit (n % 10)] := by
  rw [decstr_of_ge h, decstr_of_lt (by omega)]; rfl

theorem decstr_three {n : Nat} (h : 100 ≤ n) (h' : n < 1000) :
    decstr n = [digit (n / 100), digit (n / 10 % 10), digit (n % 10)] := by
  rw [decstr_of_ge (by omega), decstr_two (by omega) (by omega), Nat.div_div_eq_div_mul]; rfl

theorem decstr_four {n : Nat} (h : 1000 ≤ n) (h' : n < 10000) :
    decstr n = [digit (n / 1000), digit (n / 100 % 10), digit (n / 10 % 10), digit (n % 10)] := by
  rw [decstr_of_ge (by omega), decstr_three (by omega) (by omega), Nat.div_div_eq_div_mul, Nat.div_div_eq_div_mul]; rfl

/-! ## byteSum -/

@[simp] theorem byteSum_nil : byteSum [] = 0 := rfl

@[simp] theorem byteSum_cons (b : Byte) (p : List Byte) : byteSum (b :: p) = b.toNat + byteSum p := by
  simp [byteSum]

@[simp] theorem byteSum_append (p q : List Byte) : byteSum (p ++ q) = byteSum p + byteSum q := by
  simp [byteSum]

theorem byteSum_le (p : List Byte) : byteSum p ≤ 255 * p.length := by
  induction p with
  | nil => simp
  | cons b p ih =>
    have := b.isLt
    simp only [byteSum_cons, List.length_cons]
    omega

end Sys2Proof.Machine
end

