-- ==== Sys2Proof/Laws/Decode.lean ====
section
/-! SUPPORT. The fields of a transaction word and of the word built from fields (spec/30 R53). -/

namespace Sys2Proof

theorem TxWord.isWrite_build (f : BitVec 1) (a d : Byte) : (TxWord.build f a d).isWrite = f.getLsbD 0 := by
  simp [TxWord.isWrite, TxWord.build]

theorem TxWord.addr_build (f : BitVec 1) (a d : Byte) : (TxWord.build f a d).addr = a := by
  ext i h
  simp [TxWord.addr, TxWord.build]
  interval_cases i <;> simp

theorem TxWord.data_build (f : BitVec 1) (a d : Byte) : (TxWord.build f a d).data = d := by
  ext i h
  simp [TxWord.data, TxWord.build]
  interval_cases i <;> simp

/-- A word is built from its own fields. -/
theorem TxWord.build_fields (w : TxWord) : TxWord.build (BitVec.ofBool w.isWrite) w.addr w.data = w := by
  ext i h
  simp [TxWord.build, TxWord.isWrite, TxWord.addr, TxWord.data]
  interval_cases i <;> simp

theorem decode_of_read {w : TxWord} (h : w.isWrite = false) : decode w = .hrd w.addr := by
  simp [decode, h]

theorem decode_of_write {w : TxWord} (h : w.isWrite = true) (ha : w.addr ≠ Config.addrCMD) :
    decode w = .hwr w.addr w.data := by
  simp [decode, h, ha]

theorem decode_of_command {w : TxWord} (h : w.isWrite = true) (ha : w.addr = Config.addrCMD) :
    decode w = if w.data = Config.codeCKS then .cks else if w.data = Config.codeENC then .enc
      else if w.data = Config.codeDEC then .dec else .illcmd w.data := by
  simp [decode, h, ha]

end Sys2Proof
end

