-- ==== Sys2Proof/Laws/State.lean ====
section
/-! SUPPORT. One lemma per field per shared update of State, true by rfl, so that no proof unfolds a record update. -/

namespace Sys2Proof.Machine

/-! ## Writing STATUS -/
@[simp] theorem State.setStatus_sh (s : State) (v : Byte) : (s.setStatus v).sh = s.sh := rfl
@[simp] theorem State.setStatus_shl (s : State) (v : Byte) : (s.setStatus v).shl = s.shl := rfl
@[simp] theorem State.setStatus_sp (s : State) (v : Byte) : (s.setStatus v).sp = s.sp := rfl
@[simp] theorem State.setStatus_spl (s : State) (v : Byte) : (s.setStatus v).spl = s.spl := rfl
@[simp] theorem State.setStatus_dh (s : State) (v : Byte) : (s.setStatus v).dh = s.dh := rfl
@[simp] theorem State.setStatus_dhl (s : State) (v : Byte) : (s.setStatus v).dhl = s.dhl := rfl
@[simp] theorem State.setStatus_dp (s : State) (v : Byte) : (s.setStatus v).dp = s.dp := rfl
@[simp] theorem State.setStatus_dpl (s : State) (v : Byte) : (s.setStatus v).dpl = s.dpl := rfl
@[simp] theorem State.setStatus_seq (s : State) (v : Byte) : (s.setStatus v).seq = s.seq := rfl
@[simp] theorem State.setStatus_ck (s : State) (v : Byte) : (s.setStatus v).ck = s.ck := rfl
@[simp] theorem State.setStatus_pl (s : State) (v : Byte) : (s.setStatus v).pl = s.pl := rfl
@[simp] theorem State.setStatus_pll (s : State) (v : Byte) : (s.setStatus v).pll = s.pll := rfl
@[simp] theorem State.setStatus_fb (s : State) (v : Byte) : (s.setStatus v).fb = s.fb := rfl
@[simp] theorem State.setStatus_fbl (s : State) (v : Byte) : (s.setStatus v).fbl = s.fbl := rfl
@[simp] theorem State.setStatus_status (s : State) (v : Byte) : (s.setStatus v).status = v := rfl
@[simp] theorem State.setStatus_script (s : State) (v : Byte) : (s.setStatus v).script = s.script := rfl
@[simp] theorem State.setStatus_reply (s : State) (v : Byte) : (s.setStatus v).reply = s.reply := rfl

/-! ## Taking an exception -/
@[simp] theorem State.raise_sh (s : State) (c : Cause) : (s.raise c).sh = s.sh := rfl
@[simp] theorem State.raise_shl (s : State) (c : Cause) : (s.raise c).shl = s.shl := rfl
@[simp] theorem State.raise_sp (s : State) (c : Cause) : (s.raise c).sp = s.sp := rfl
@[simp] theorem State.raise_spl (s : State) (c : Cause) : (s.raise c).spl = s.spl := rfl
@[simp] theorem State.raise_dh (s : State) (c : Cause) : (s.raise c).dh = s.dh := rfl
@[simp] theorem State.raise_dhl (s : State) (c : Cause) : (s.raise c).dhl = s.dhl := rfl
@[simp] theorem State.raise_dp (s : State) (c : Cause) : (s.raise c).dp = s.dp := rfl
@[simp] theorem State.raise_dpl (s : State) (c : Cause) : (s.raise c).dpl = s.dpl := rfl
@[simp] theorem State.raise_seq (s : State) (c : Cause) : (s.raise c).seq = s.seq := rfl
@[simp] theorem State.raise_ck (s : State) (c : Cause) : (s.raise c).ck = s.ck := rfl
@[simp] theorem State.raise_pl (s : State) (c : Cause) : (s.raise c).pl = s.pl := rfl
@[simp] theorem State.raise_pll (s : State) (c : Cause) : (s.raise c).pll = s.pll := rfl
@[simp] theorem State.raise_fb (s : State) (c : Cause) : (s.raise c).fb = s.fb := rfl
@[simp] theorem State.raise_fbl (s : State) (c : Cause) : (s.raise c).fbl = s.fbl := rfl
@[simp] theorem State.raise_status (s : State) (c : Cause) : (s.raise c).status = c.statusByte := rfl
@[simp] theorem State.raise_script (s : State) (c : Cause) : (s.raise c).script = s.script := rfl
@[simp] theorem State.raise_reply (s : State) (c : Cause) : (s.raise c).reply = s.reply := rfl

/-! ## Completing a command -/
@[simp] theorem State.complete_sh (s : State) : (s.complete).sh = s.sh := rfl
@[simp] theorem State.complete_shl (s : State) : (s.complete).shl = s.shl := rfl
@[simp] theorem State.complete_sp (s : State) : (s.complete).sp = s.sp := rfl
@[simp] theorem State.complete_spl (s : State) : (s.complete).spl = s.spl := rfl
@[simp] theorem State.complete_dh (s : State) : (s.complete).dh = s.dh := rfl
@[simp] theorem State.complete_dhl (s : State) : (s.complete).dhl = s.dhl := rfl
@[simp] theorem State.complete_dp (s : State) : (s.complete).dp = s.dp := rfl
@[simp] theorem State.complete_dpl (s : State) : (s.complete).dpl = s.dpl := rfl
@[simp] theorem State.complete_seq (s : State) : (s.complete).seq = s.seq := rfl
@[simp] theorem State.complete_ck (s : State) : (s.complete).ck = s.ck := rfl
@[simp] theorem State.complete_pl (s : State) : (s.complete).pl = s.pl := rfl
@[simp] theorem State.complete_pll (s : State) : (s.complete).pll = s.pll := rfl
@[simp] theorem State.complete_fb (s : State) : (s.complete).fb = s.fb := rfl
@[simp] theorem State.complete_fbl (s : State) : (s.complete).fbl = s.fbl := rfl
@[simp] theorem State.complete_status (s : State) : (s.complete).status = 0x00#8 := rfl
@[simp] theorem State.complete_script (s : State) : (s.complete).script = s.script := rfl
@[simp] theorem State.complete_reply (s : State) : (s.complete).reply = s.reply := rfl

/-! ## Accepting a transaction -/
@[simp] theorem State.accept_sh (s : State) (rest : List HostEvent) : (s.accept rest).sh = s.sh := rfl
@[simp] theorem State.accept_shl (s : State) (rest : List HostEvent) : (s.accept rest).shl = s.shl := rfl
@[simp] theorem State.accept_sp (s : State) (rest : List HostEvent) : (s.accept rest).sp = s.sp := rfl
@[simp] theorem State.accept_spl (s : State) (rest : List HostEvent) : (s.accept rest).spl = s.spl := rfl
@[simp] theorem State.accept_dh (s : State) (rest : List HostEvent) : (s.accept rest).dh = s.dh := rfl
@[simp] theorem State.accept_dhl (s : State) (rest : List HostEvent) : (s.accept rest).dhl = s.dhl := rfl
@[simp] theorem State.accept_dp (s : State) (rest : List HostEvent) : (s.accept rest).dp = s.dp := rfl
@[simp] theorem State.accept_dpl (s : State) (rest : List HostEvent) : (s.accept rest).dpl = s.dpl := rfl
@[simp] theorem State.accept_seq (s : State) (rest : List HostEvent) : (s.accept rest).seq = s.seq := rfl
@[simp] theorem State.accept_ck (s : State) (rest : List HostEvent) : (s.accept rest).ck = s.ck := rfl
@[simp] theorem State.accept_pl (s : State) (rest : List HostEvent) : (s.accept rest).pl = s.pl := rfl
@[simp] theorem State.accept_pll (s : State) (rest : List HostEvent) : (s.accept rest).pll = s.pll := rfl
@[simp] theorem State.accept_fb (s : State) (rest : List HostEvent) : (s.accept rest).fb = s.fb := rfl
@[simp] theorem State.accept_fbl (s : State) (rest : List HostEvent) : (s.accept rest).fbl = s.fbl := rfl
@[simp] theorem State.accept_status (s : State) (rest : List HostEvent) : (s.accept rest).status = s.status := rfl
@[simp] theorem State.accept_script (s : State) (rest : List HostEvent) : (s.accept rest).script = rest := rfl
@[simp] theorem State.accept_reply (s : State) (rest : List HostEvent) : (s.accept rest).reply = none := rfl

/-! ## Answering the host -/
@[simp] theorem State.answer_sh (s : State) (v : Byte) : (s.answer v).sh = s.sh := rfl
@[simp] theorem State.answer_shl (s : State) (v : Byte) : (s.answer v).shl = s.shl := rfl
@[simp] theorem State.answer_sp (s : State) (v : Byte) : (s.answer v).sp = s.sp := rfl
@[simp] theorem State.answer_spl (s : State) (v : Byte) : (s.answer v).spl = s.spl := rfl
@[simp] theorem State.answer_dh (s : State) (v : Byte) : (s.answer v).dh = s.dh := rfl
@[simp] theorem State.answer_dhl (s : State) (v : Byte) : (s.answer v).dhl = s.dhl := rfl
@[simp] theorem State.answer_dp (s : State) (v : Byte) : (s.answer v).dp = s.dp := rfl
@[simp] theorem State.answer_dpl (s : State) (v : Byte) : (s.answer v).dpl = s.dpl := rfl
@[simp] theorem State.answer_seq (s : State) (v : Byte) : (s.answer v).seq = s.seq := rfl
@[simp] theorem State.answer_ck (s : State) (v : Byte) : (s.answer v).ck = s.ck := rfl
@[simp] theorem State.answer_pl (s : State) (v : Byte) : (s.answer v).pl = s.pl := rfl
@[simp] theorem State.answer_pll (s : State) (v : Byte) : (s.answer v).pll = s.pll := rfl
@[simp] theorem State.answer_fb (s : State) (v : Byte) : (s.answer v).fb = s.fb := rfl
@[simp] theorem State.answer_fbl (s : State) (v : Byte) : (s.answer v).fbl = s.fbl := rfl
@[simp] theorem State.answer_status (s : State) (v : Byte) : (s.answer v).status = s.status := rfl
@[simp] theorem State.answer_script (s : State) (v : Byte) : (s.answer v).script = s.script := rfl
@[simp] theorem State.answer_reply (s : State) (v : Byte) : (s.answer v).reply = some v := rfl

/-! ## Reset -/
@[simp] theorem resetBlock_sh (rest : List HostEvent) : (resetBlock rest).sh = Vector.replicate 16 0#8 := rfl
@[simp] theorem resetBlock_shl (rest : List HostEvent) : (resetBlock rest).shl = 0#8 := rfl
@[simp] theorem resetBlock_sp (rest : List HostEvent) : (resetBlock rest).sp = Vector.replicate 6 0#8 := rfl
@[simp] theorem resetBlock_spl (rest : List HostEvent) : (resetBlock rest).spl = 0#8 := rfl
@[simp] theorem resetBlock_dh (rest : List HostEvent) : (resetBlock rest).dh = Vector.replicate 16 0#8 := rfl
@[simp] theorem resetBlock_dhl (rest : List HostEvent) : (resetBlock rest).dhl = 0#8 := rfl
@[simp] theorem resetBlock_dp (rest : List HostEvent) : (resetBlock rest).dp = Vector.replicate 6 0#8 := rfl
@[simp] theorem resetBlock_dpl (rest : List HostEvent) : (resetBlock rest).dpl = 0#8 := rfl
@[simp] theorem resetBlock_seq (rest : List HostEvent) : (resetBlock rest).seq = 0#1 := rfl
@[simp] theorem resetBlock_ck (rest : List HostEvent) : (resetBlock rest).ck = Vector.replicate 3 0#8 := rfl
@[simp] theorem resetBlock_pl (rest : List HostEvent) : (resetBlock rest).pl = Vector.replicate 16 0#8 := rfl
@[simp] theorem resetBlock_pll (rest : List HostEvent) : (resetBlock rest).pll = 0#8 := rfl
@[simp] theorem resetBlock_fb (rest : List HostEvent) : (resetBlock rest).fb = Vector.replicate 54 0#8 := rfl
@[simp] theorem resetBlock_fbl (rest : List HostEvent) : (resetBlock rest).fbl = 0#8 := rfl
@[simp] theorem resetBlock_status (rest : List HostEvent) : (resetBlock rest).status = 0x00#8 := rfl
@[simp] theorem resetBlock_script (rest : List HostEvent) : (resetBlock rest).script = rest := rfl
@[simp] theorem resetBlock_reply (rest : List HostEvent) : (resetBlock rest).reply = none := rfl

/-! ## Loading a decoded frame -/
@[simp] theorem State.load_sh (s : State) (r : Frame) : (s.load r).sh = r.sourceAddress := rfl
@[simp] theorem State.load_shl (s : State) (r : Frame) : (s.load r).shl = lengthByte r.sourceAddressLen := rfl
@[simp] theorem State.load_sp (s : State) (r : Frame) : (s.load r).sp = r.sourcePort := rfl
@[simp] theorem State.load_spl (s : State) (r : Frame) : (s.load r).spl = lengthByte r.sourcePortLen := rfl
@[simp] theorem State.load_dh (s : State) (r : Frame) : (s.load r).dh = r.destAddress := rfl
@[simp] theorem State.load_dhl (s : State) (r : Frame) : (s.load r).dhl = lengthByte r.destAddressLen := rfl
@[simp] theorem State.load_dp (s : State) (r : Frame) : (s.load r).dp = r.destPort := rfl
@[simp] theorem State.load_dpl (s : State) (r : Frame) : (s.load r).dpl = lengthByte r.destPortLen := rfl
@[simp] theorem State.load_seq (s : State) (r : Frame) : (s.load r).seq = r.sequence := rfl
@[simp] theorem State.load_ck (s : State) (r : Frame) : (s.load r).ck = r.checksum := rfl
@[simp] theorem State.load_pl (s : State) (r : Frame) : (s.load r).pl = r.payload ++ Vector.replicate 10 0x00#8 := rfl
@[simp] theorem State.load_pll (s : State) (r : Frame) : (s.load r).pll = lengthByte r.payloadLen := rfl
@[simp] theorem State.load_fb (s : State) (r : Frame) : (s.load r).fb = s.fb := rfl
@[simp] theorem State.load_fbl (s : State) (r : Frame) : (s.load r).fbl = s.fbl := rfl
@[simp] theorem State.load_status (s : State) (r : Frame) : (s.load r).status = s.status := rfl
@[simp] theorem State.load_script (s : State) (r : Frame) : (s.load r).script = s.script := rfl
@[simp] theorem State.load_reply (s : State) (r : Frame) : (s.load r).reply = s.reply := rfl

/-! ## The command CKS -/
@[simp] theorem doCks_sh (s : State) : (doCks s).sh = s.sh := rfl
@[simp] theorem doCks_shl (s : State) : (doCks s).shl = s.shl := rfl
@[simp] theorem doCks_sp (s : State) : (doCks s).sp = s.sp := rfl
@[simp] theorem doCks_spl (s : State) : (doCks s).spl = s.spl := rfl
@[simp] theorem doCks_dh (s : State) : (doCks s).dh = s.dh := rfl
@[simp] theorem doCks_dhl (s : State) : (doCks s).dhl = s.dhl := rfl
@[simp] theorem doCks_dp (s : State) : (doCks s).dp = s.dp := rfl
@[simp] theorem doCks_dpl (s : State) : (doCks s).dpl = s.dpl := rfl
@[simp] theorem doCks_seq (s : State) : (doCks s).seq = s.seq := rfl
@[simp] theorem doCks_ck (s : State) : (doCks s).ck = cks s.payload := rfl
@[simp] theorem doCks_pl (s : State) : (doCks s).pl = s.pl := rfl
@[simp] theorem doCks_pll (s : State) : (doCks s).pll = s.pll := rfl
@[simp] theorem doCks_fb (s : State) : (doCks s).fb = s.fb := rfl
@[simp] theorem doCks_fbl (s : State) : (doCks s).fbl = s.fbl := rfl
@[simp] theorem doCks_status (s : State) : (doCks s).status = 0x00#8 := rfl
@[simp] theorem doCks_script (s : State) : (doCks s).script = s.script := rfl
@[simp] theorem doCks_reply (s : State) : (doCks s).reply = s.reply := rfl

/-! ## The command ENC -/
@[simp] theorem doEnc_sh (s : State) : (doEnc s).sh = s.sh := rfl
@[simp] theorem doEnc_shl (s : State) : (doEnc s).shl = s.shl := rfl
@[simp] theorem doEnc_sp (s : State) : (doEnc s).sp = s.sp := rfl
@[simp] theorem doEnc_spl (s : State) : (doEnc s).spl = s.spl := rfl
@[simp] theorem doEnc_dh (s : State) : (doEnc s).dh = s.dh := rfl
@[simp] theorem doEnc_dhl (s : State) : (doEnc s).dhl = s.dhl := rfl
@[simp] theorem doEnc_dp (s : State) : (doEnc s).dp = s.dp := rfl
@[simp] theorem doEnc_dpl (s : State) : (doEnc s).dpl = s.dpl := rfl
@[simp] theorem doEnc_seq (s : State) : (doEnc s).seq = s.seq := rfl
@[simp] theorem doEnc_ck (s : State) : (doEnc s).ck = cks s.payload := rfl
@[simp] theorem doEnc_pl (s : State) : (doEnc s).pl = s.pl := rfl
@[simp] theorem doEnc_pll (s : State) : (doEnc s).pll = s.pll := rfl
@[simp] theorem doEnc_fb (s : State) : (doEnc s).fb = s.frame := rfl
@[simp] theorem doEnc_fbl (s : State) : (doEnc s).fbl = 54#8 := rfl
@[simp] theorem doEnc_status (s : State) : (doEnc s).status = 0x00#8 := rfl
@[simp] theorem doEnc_script (s : State) : (doEnc s).script = s.script := rfl
@[simp] theorem doEnc_reply (s : State) : (doEnc s).reply = s.reply := rfl

/-! ## The shared updates as record updates -/

theorem State.raise_eq (s : State) (c : Cause) : s.raise c = { s with status := c.statusByte } := rfl

theorem State.complete_eq (s : State) : s.complete = { s with status := 0x00#8 } := rfl

theorem State.answer_eq (s : State) (v : Byte) : s.answer v = { s with reply := some v } := rfl

theorem State.accept_eq (s : State) (rest : List HostEvent) :
    s.accept rest = { s with script := rest, reply := none } := rfl

theorem doCks_eq (s : State) : doCks s = { s with ck := cks s.payload, status := 0x00#8 } := rfl

theorem doEnc_eq (s : State) :
    doEnc s = { s with fb := s.frame, fbl := 54#8, ck := cks s.payload, status := 0x00#8 } := rfl

end Sys2Proof.Machine
end

