-- ==== Sys2Proof/Laws/Ops.lean ====
section
/-! SUPPORT. What each shared operation and the step function can do, said once. -/

namespace Sys2Proof.Machine

/-! ## The register map -/

/-! Each array's addresses run from its base; the single registers' locations are equal by computation. -/

theorem locate_sh : ∀ (i : Nat) (h : i < 16), locate (BitVec.ofNat 8 (0x00 + i)) = .sh ⟨i, h⟩ := by decide
theorem locate_sp : ∀ (i : Nat) (h : i < 6), locate (BitVec.ofNat 8 (0x10 + i)) = .sp ⟨i, h⟩ := by decide
theorem locate_dh : ∀ (i : Nat) (h : i < 16), locate (BitVec.ofNat 8 (0x18 + i)) = .dh ⟨i, h⟩ := by decide
theorem locate_dp : ∀ (i : Nat) (h : i < 6), locate (BitVec.ofNat 8 (0x28 + i)) = .dp ⟨i, h⟩ := by decide
theorem locate_pl : ∀ (i : Nat) (h : i < 16), locate (BitVec.ofNat 8 (0x30 + i)) = .pl ⟨i, h⟩ := by decide
theorem locate_ck : ∀ (i : Nat) (h : i < 3), locate (BitVec.ofNat 8 (0x46 + i)) = .ck ⟨i, h⟩ := by decide
theorem locate_fb : ∀ (i : Nat) (h : i < 54), locate (BitVec.ofNat 8 (0x80 + i)) = .fb ⟨i, h⟩ := by decide
theorem locate_reserved : ∀ a : Byte, ReservedAddr a → locate a = .reserved := by decide

/-- The address of a location; a reserved one has no address of its own. -/
def Loc.address : Loc → Nat
  | .sh i => 0x00 + i.val
  | .sp i => 0x10 + i.val
  | .dh i => 0x18 + i.val
  | .dp i => 0x28 + i.val
  | .pl i => 0x30 + i.val
  | .shl => 0x40
  | .spl => 0x41
  | .dhl => 0x42
  | .dpl => 0x43
  | .pll => 0x44
  | .seq => 0x45
  | .ck i => 0x46 + i.val
  | .last => 0x49
  | .status => 0x4A
  | .fbl => 0x4B
  | .cmd => 0x4C
  | .fb i => 0x80 + i.val
  | .reserved => 0x100

theorem address_locate : ∀ a : Byte, locate a ≠ .reserved → (locate a).address = a.toNat := by decide

/-- Two addresses of one location are equal, reserved ones apart. -/
theorem locate_inj {a b : Byte} (h : locate a = locate b) (hr : locate a ≠ .reserved) : a = b :=
  BitVec.eq_of_toNat_eq ((address_locate a hr).symm.trans (h ▸ address_locate b (h ▸ hr)))

/-- A write of one location leaves what every other reads, the view LAST apart. -/
theorem State.readLoc_writeLoc_of_ne (s : State) (d : Byte) {l l' : Loc} (h : l' ≠ l) (hl : l' ≠ .last) :
    (s.writeLoc d l).readLoc l' = s.readLoc l' := by
  have harr : ∀ {W : Nat} (v : Vector Byte W) (i j : Fin W), j ≠ i → (v.set i.val d)[j] = v[j] := fun v i j hne =>
    Vector.getElem_set_ne _ _ (fun heq => hne (Fin.ext heq.symm))
  cases l <;> cases l' <;> first
    | rfl
    | exact absurd rfl hl
    | exact absurd rfl h
    | exact harr _ _ _ (fun heq => h (heq ▸ rfl))

/-- What the location written reads after the write (the notes of spec/20 R31). -/
theorem State.readLoc_writeLoc_self (s : State) (d : Byte) (l : Loc) (hl : l ≠ .last) :
    (s.writeLoc d l).readLoc l = match l with
      | .shl | .dhl => clamp d Config.hostW
      | .spl | .dpl => clamp d Config.portW
      | .pll => clamp d Config.payInMax
      | .seq => (d.extractLsb' 0 1).setWidth 8
      | .ck _ | .status | .cmd | .reserved => s.readLoc l
      | _ => d := by
  have harr : ∀ {W : Nat} (v : Vector Byte W) (i : Fin W), (v.set i.val d)[i] = d := fun v i =>
    Vector.getElem_set_self _
  cases l <;> first
    | rfl
    | exact absurd rfl hl
    | exact harr _ _

/-- LAST follows PL and PLL only. -/
theorem State.last_congr {s t : State} (hpl : t.pl = s.pl) (hpll : t.pll = s.pll) : t.last = s.last := by
  simp [State.last, State.payload, hpl, hpll]

/-- A location's write leaves CK, STATUS and the model's own fields alone: CK and STATUS are read-only for the host
(spec/20 R31). -/
theorem State.writeLoc_readOnly (s : State) (d : Byte) (l : Loc) :
    (s.writeLoc d l).ck = s.ck ∧ (s.writeLoc d l).status = s.status ∧ (s.writeLoc d l).script = s.script
      ∧ (s.writeLoc d l).reply = s.reply := by
  cases l <;> exact ⟨rfl, rfl, rfl, rfl⟩

/-- CMD is at 0x4C and nowhere else (spec/20 R31). -/
theorem locate_eq_cmd_iff (a : Byte) : locate a = .cmd ↔ a = Config.addrCMD := by
  revert a; decide

/-! ## Command dispatch -/

/-- What a write to CMD can do (spec/43 R107): the command its byte names, or the illegal command. -/
theorem issueCommand_cases (d : Byte) (s : State) :
    (d = Config.codeCKS ∧ issueCommand d s = doCks s) ∨ (d = Config.codeENC ∧ issueCommand d s = doEnc s)
      ∨ (d = Config.codeDEC ∧ issueCommand d s = doDec s)
      ∨ (¬ isCommandCode d ∧ issueCommand d s = s.raise .illegalCmd) := by
  unfold issueCommand
  by_cases h1 : d = Config.codeCKS
  · exact .inl ⟨h1, if_pos h1⟩
  by_cases h2 : d = Config.codeENC
  · exact .inr (.inl ⟨h2, by rw [if_neg h1, if_pos h2]⟩)
  by_cases h3 : d = Config.codeDEC
  · exact .inr (.inr (.inl ⟨h3, by rw [if_neg h1, if_neg h2, if_pos h3]⟩))
  · exact .inr (.inr (.inr ⟨by simp [isCommandCode, h1, h2, h3], by rw [if_neg h1, if_neg h2, if_neg h3]⟩))

/-- What DEC can do: raise the cause of the first failing check, or load the frame and complete (spec/42 R97, R98). -/
theorem doDec_cases (s : State) :
    (∃ c, decodeFrame s.fb s.fbl.toNat = .error c ∧ doDec s = s.raise c)
      ∨ (decodeFrame s.fb s.fbl.toNat = .ok (frameOf s.fb) ∧ doDec s = (s.load (frameOf s.fb)).complete) := by
  have hok : ∀ r, decodeFrame s.fb s.fbl.toNat = .ok r → r = frameOf s.fb := by
    intro r h
    unfold decodeFrame at h
    split at h <;> [cases h; skip]
    split at h <;> [cases h; skip]
    split at h <;> [cases h; skip]
    split at h <;> cases h
    rfl
  cases h : decodeFrame s.fb s.fbl.toNat with
  | error c => exact .inl ⟨c, rfl, by simp [doDec, h]⟩
  | ok r =>
    cases hok r h
    exact .inr ⟨rfl, by simp [doDec, h]⟩

/-! ## The meanings -/

theorem exec_cks (s : State) : exec .cks s = .next (doCks s) := rfl

theorem exec_enc (s : State) : exec .enc s = .next (doEnc s) := rfl

theorem exec_dec (s : State) : exec .dec s = .next (doDec s) := rfl

theorem exec_illcmd (d : Byte) (s : State) : exec (.illcmd d) s = .next (s.raise .illegalCmd) := rfl

theorem exec_hrd (a : Byte) (s : State) : exec (.hrd a) s = .next (s.answer (s.read a)) := rfl

theorem exec_hwr_cmd (d : Byte) (s : State) : exec (.hwr Config.addrCMD d) s = .next (issueCommand d s) := rfl

theorem exec_hwr_plain {a : Byte} (h : a ≠ Config.addrCMD) (d : Byte) (s : State) :
    exec (.hwr a d) s = .next (s.writeLoc d (locate a)) := by
  have : locate a ≠ .cmd := mt (locate_eq_cmd_iff a).mp h
  simp [exec, execHwr, this]

/-! ## One step -/

theorem step_nil {s : State} (h : s.script = []) : step s = .next s := by
  simp [step, h]

theorem step_reset {s : State} {rest : List HostEvent} (h : s.script = .reset :: rest) :
    step s = .next (resetBlock rest) := by
  simp [step, h]

theorem step_word {s : State} {w : TxWord} {rest : List HostEvent} (h : s.script = .word w :: rest) :
    step s = exec (decode w) (s.accept rest) := by
  simp [step, h]

/-- What a step can do. -/
theorem step_cases {s t : State} (h : step s = .next t) :
    (s.script = [] ∧ t = s) ∨ (∃ rest, s.script = .reset :: rest ∧ t = resetBlock rest)
      ∨ ∃ w rest, s.script = .word w :: rest ∧ exec (decode w) (s.accept rest) = .next t := by
  cases hs : s.script with
  | nil => rw [step_nil hs] at h; cases h; exact .inl ⟨rfl, rfl⟩
  | cons e rest =>
    cases e with
    | reset => rw [step_reset hs] at h; cases h; exact .inr (.inl ⟨rest, rfl, rfl⟩)
    | word w => rw [step_word hs] at h; exact .inr (.inr ⟨w, rest, rfl, h⟩)

end Sys2Proof.Machine
end

