-- ==== Sys2Proof/Laws/PerInstr.lean ====
section
/-! SUPPORT. Family EncodeMatchesRow: a well-formed transaction's word matches the opcode table's row of its mnemonic
(spec/30 R54, R55, spec/opcode_table.json). One lemma per constructor. -/

namespace Sys2Proof.Laws.EncodeMatchesRow

/-- The word is admitted by the first row with the instruction's mnemonic. -/
def Statement (i : Instr) : Prop :=
  i.WellFormed → ∃ r ∈ opcodeTable, r.mnemonic = i.mnemonic ∧ r.admits (encode i) = true

/-- A command write's bits 16:8 are those of the pattern 0x14C00. -/
theorem build_command_high (d : Byte) : (TxWord.build 1#1 Config.addrCMD d) &&& 0x1FF00#17 = 0x14C00#17 := by
  revert d; decide

theorem build_write_bit (a d : Byte) : (TxWord.build 1#1 a d) &&& 0x10000#17 = 0x10000#17 := by
  ext i h
  simp only [BitVec.getElem_and, TxWord.build, BitVec.getElem_or]
  interval_cases i <;> simp

theorem build_read_bit (a d : Byte) : (TxWord.build 0#1 a d) &&& 0x10000#17 = 0x00000#17 := by
  ext i h
  simp only [BitVec.getElem_and, TxWord.build, BitVec.getElem_or]
  interval_cases i <;> simp

theorem cks : Statement .cks := fun _ => ⟨_, List.mem_cons_self, rfl, by decide⟩

theorem enc : Statement .enc := fun _ => ⟨⟨"ENC", 0x14C02#17, 0x1FFFF#17⟩, by decide, rfl, by decide⟩

theorem dec : Statement .dec := fun _ => ⟨⟨"DEC", 0x14C03#17, 0x1FFFF#17⟩, by decide, rfl, by decide⟩

theorem illcmd (d : Byte) : Statement (.illcmd d) := fun _ =>
  ⟨⟨"ILLCMD", 0x14C00#17, 0x1FF00#17⟩, by decide, rfl, by
    simpa [OpcodeRow.admits, encode] using build_command_high d⟩

theorem hwr (a d : Byte) : Statement (.hwr a d) := fun _ =>
  ⟨⟨"HWR", 0x10000#17, 0x10000#17⟩, by decide, rfl, by simpa [OpcodeRow.admits, encode] using build_write_bit a d⟩

theorem hrd (a : Byte) : Statement (.hrd a) := fun _ =>
  ⟨⟨"HRD", 0x00000#17, 0x10000#17⟩, by decide, rfl, by simpa [OpcodeRow.admits, encode] using build_read_bit a 0x00#8⟩

end Sys2Proof.Laws.EncodeMatchesRow
end

