-- ==== Sys2Proof/Machine/ScriptText.lean ====
section
/-! DEFINITION. Reading a script's text: "One transaction per line; `;` starts a comment; numbers are hexadecimal with
`0x` or decimal without; a register name may stand for its address" (spec/30 R61, R62). Log entry 12. -/

namespace Sys2Proof.Machine

/-- A piece of a line: a word, or a string between quotes as bytes. -/
inductive Token where
  | word (cs : List Char)
  | text (bytes : List Byte)
  deriving DecidableEq, Repr

/-- Where the reader of a line stands: between pieces, in a word, in a string (what was read of it, last first). -/
inductive LexState where
  | gap
  | word (rev : List Char)
  | text (rev : List Byte)
  deriving DecidableEq, Repr

/-- Blanks and commas part a line's pieces. -/
def isGap (c : Char) : Bool := c == ' ' || c == ',' || c.toNat == 9

/-- The quote character. -/
def quote : Char := Char.ofNat 0x22

/-- The pieces of a line before its comment; none for a string that is not closed or holds a character outside ASCII. -/
def lex : LexState → List Char → Option (List Token)
  | .gap, [] => some []
  | .word w, [] => some [.word w.reverse]
  | .text _, [] => none
  | .gap, c :: cs =>
    if c == ';' then some []
    else if isGap c then lex .gap cs
    else if c == quote then lex (.text []) cs
    else lex (.word [c]) cs
  | .word w, c :: cs =>
    if c == ';' then some [.word w.reverse]
    else if isGap c then (lex .gap cs).map (.word w.reverse :: ·)
    else lex (.word (c :: w)) cs
  | .text t, c :: cs =>
    if c == quote then (lex .gap cs).map (.text t.reverse :: ·)
    else if c.toNat < 128 then lex (.text (BitVec.ofNat 8 c.toNat :: t)) cs
    else none

/-- The value of a digit in a base up to sixteen. -/
def digitValue (base : Nat) (c : Char) : Option Nat :=
  let v :=
    if 0x30 ≤ c.toNat ∧ c.toNat ≤ 0x39 then some (c.toNat - 0x30)
    else if 0x41 ≤ c.toNat ∧ c.toNat ≤ 0x46 then some (c.toNat - 0x41 + 10)
    else if 0x61 ≤ c.toNat ∧ c.toNat ≤ 0x66 then some (c.toNat - 0x61 + 10)
    else none
  v.bind fun n => if n < base then some n else none

/-- The number that digits write, read after the number `acc`. -/
def readDigits (base acc : Nat) : List Char → Option Nat
  | [] => some acc
  | c :: cs => (digitValue base c).bind fun v => readDigits base (base * acc + v) cs

/-- A number: hexadecimal with `0x`, decimal without (spec/30 R61). -/
def readNumber : List Char → Option Nat
  | [] => none
  | ['0', 'x'] => none
  | '0' :: 'x' :: cs => readDigits 16 0 cs
  | cs => readDigits 10 0 cs

/-- A number that is a byte. -/
def readByte (cs : List Char) : Option Byte :=
  (readNumber cs).bind fun n => if n < 256 then some (BitVec.ofNat 8 n) else none

/-- A byte of a list of bytes "given in hexadecimal" (spec/30 R62), with or without `0x`. -/
def readHexByte : List Char → Option Byte
  | [] => none
  | '0' :: 'x' :: cs => readByte ('0' :: 'x' :: cs)
  | cs => readByte ('0' :: 'x' :: cs)

/-- The register names with their addresses and how many consecutive addresses they cover (spec/20 R31). -/
def registerNames : List (List Char × Byte × Nat) :=
  [ (['S', 'H'], Config.baseSH, 16), (['S', 'P'], Config.baseSP, 6), (['D', 'H'], Config.baseDH, 16),
    (['D', 'P'], Config.baseDP, 6), (['P', 'L'], Config.basePL, 16), (['C', 'K'], Config.baseCK, 3),
    (['F', 'B'], Config.baseFB, 54), (['S', 'H', 'L'], Config.addrSHL, 1), (['S', 'P', 'L'], Config.addrSPL, 1),
    (['D', 'H', 'L'], Config.addrDHL, 1), (['D', 'P', 'L'], Config.addrDPL, 1), (['P', 'L', 'L'], Config.addrPLL, 1),
    (['S', 'E', 'Q'], Config.addrSEQ, 1), (['L', 'A', 'S', 'T'], Config.addrLAST, 1),
    (['S', 'T', 'A', 'T', 'U', 'S'], Config.addrSTATUS, 1), (['F', 'B', 'L'], Config.addrFBL, 1),
    (['C', 'M', 'D'], Config.addrCMD, 1) ]

/-- The address of a register's name with an offset within it, as in `FB+44` (spec/30 R61). -/
def readNamed (name : List Char) (offset : Nat) : Option Byte :=
  (registerNames.find? (·.1 == name)).bind fun r =>
    if offset < r.2.2 then some (r.2.1 + BitVec.ofNat 8 offset) else none

/-- An address: a number, a register's name, or a name and an offset (spec/30 R61). -/
def readAddr (cs : List Char) : Option Byte :=
  match cs.span (· != '+') with
  | (name, _ :: offset) => (readNumber offset).bind (readNamed name)
  | (name, []) => (readByte name).orElse fun _ => readNamed name 0

/-- A string register's name. -/
def readStrReg : List Char → Option StrReg
  | ['S', 'H'] => some .sh
  | ['S', 'P'] => some .sp
  | ['D', 'H'] => some .dh
  | ['D', 'P'] => some .dp
  | ['P', 'L'] => some .pl
  | _ => none

/-- The bytes that words give in hexadecimal. -/
def readHexBytes : List Token → Option (List Byte)
  | [] => some []
  | .word w :: ts => (readHexByte w).bind fun b => (readHexBytes ts).map (b :: ·)
  | .text _ :: _ => none

/-- The line that a line's pieces write; none where they write none of spec/30 R61 and R62. -/
def readPieces : List Token → Option ScriptLine
  | [.word ['H', 'R', 'D'], .word a] => (readAddr a).map .hrd
  | [.word ['H', 'W', 'R'], .word a, .word d] => (readAddr a).bind fun a => (readByte d).map (.hwr a)
  | [.word ['C', 'K', 'S']] => some .cks
  | [.word ['E', 'N', 'C']] => some .enc
  | [.word ['D', 'E', 'C']] => some .dec
  | [.word ['R', 'E', 'S', 'E', 'T']] => some .reset
  | [.word ['S', 'E', 'T', 'S'], .word r, .text bytes] => (readStrReg r).map (.sets · bytes)
  | .word ['S', 'E', 'T', 'B'] :: .word r :: bytes =>
    (readStrReg r).bind fun r => (readHexBytes bytes).map (.sets r)
  | [.word ['S', 'E', 'T', 'S', 'E', 'Q'], .word b] => (readByte b).map .setseq
  | .word ['L', 'O', 'A', 'D', 'F'] :: .word n :: bytes =>
    (readNumber n).bind fun n => (readHexBytes bytes).map (.loadf n)
  | [.word ['R', 'D', 'S'], .word r] => (readStrReg r).map .rds
  | [.word ['R', 'D', 'C', 'K']] => some .rdck
  | [.word ['R', 'D', 'S', 'T']] => some .rdst
  | [.word ['R', 'D', 'F']] => some .rdf
  | _ => none

/-- The well-formed lines that one line of text writes: none of them for a blank line or a comment. Answers `none` where
the text is no line of spec/30 R61 and R62. -/
def readLine (text : List Char) : Option (List ScriptLine) :=
  (lex .gap text).bind fun pieces =>
    if pieces.isEmpty then some []
    else (readPieces pieces).bind fun l => if l.wellFormed then some [l] else none

/-- The host events of a script's lines of text, in order (spec/70 R147: "a finite list of resets and transaction
words"). -/
def readScript : List (List Char) → Option (List HostEvent)
  | [] => some []
  | t :: ts => (readLine t).bind fun ls => (readScript ts).map (ls.flatMap ScriptLine.events ++ ·)

end Sys2Proof.Machine
end

