-- ==== Sys2Proof/Tests/Slice0.lean ====
section
/-! SUPPORT. Tests of the model against spec/95 (its vectors are derived from the spec's rules, by hand) and the spec's own
examples; and for each obligation with hypotheses a witness that meets them. -/

namespace Sys2Proof.Tests

open Sys2Proof.Machine

/-! ## Small states -/

/-- "HELLO." -/
def hello : List Byte := [0x48, 0x45, 0x4C, 0x4C, 0x4F, 0x2E]
/-- "127.0.0.1" -/
def localhost : List Byte := [0x31, 0x32, 0x37, 0x2E, 0x30, 0x2E, 0x30, 0x2E, 0x31]
/-- "5000" and "6000" -/
def port5000 : List Byte := [0x35, 0x30, 0x30, 0x30]
def port6000 : List Byte := [0x36, 0x30, 0x30, 0x30]
/-- "<shutdown/>" -/
def shutdown : List Byte := [0x3C, 0x73, 0x68, 0x75, 0x74, 0x64, 0x6F, 0x77, 0x6E, 0x2F, 0x3E]

/-- The registers of vector E2 of spec/95 section 3.3. -/
def e2Regs : State :=
  { State.reset with
    sh := padR localhost 16 0, shl := 9, sp := padR port5000 6 0, spl := 4
    dh := padR localhost 16 0, dhl := 9, dp := padR port6000 6 0, dpl := 4
    pl := padR hello 16 0, pll := 6 }

/-- The 54 bytes of E2, as spec/95 section 3.3 lists them. -/
def e2Bytes : List Byte :=
  [0x31, 0x32, 0x37, 0x2E, 0x30, 0x2E, 0x30, 0x2E, 0x31, 0x20, 0x20, 0x20, 0x20, 0x20, 0x20, 0x20]
    ++ [0x35, 0x30, 0x30, 0x30, 0x20, 0x20]
    ++ [0x31, 0x32, 0x37, 0x2E, 0x30, 0x2E, 0x30, 0x2E, 0x31, 0x20, 0x20, 0x20, 0x20, 0x20, 0x20, 0x20]
    ++ [0x36, 0x30, 0x30, 0x30, 0x20, 0x20] ++ [0x30] ++ [0x34, 0x31, 0x38] ++ [0x48, 0x45, 0x4C, 0x4C, 0x4F, 0x2E]

/-- The state whose frame buffer holds E2. -/
def e2Buffer : State := { State.reset with fb := padR e2Bytes 54 0, fbl := 54 }

/-- E2 in the buffer with one byte changed. -/
def e2With (i : Fin 54) (b : Byte) : State := { e2Buffer with fb := e2Buffer.fb.set i.val b }

/-- The state an instruction leaves; the same state where it answers none. -/
def after (i : Instr) (s : State) : State :=
  match exec i s with
  | .next t => t
  | _ => s

/-! ## WellFormed refuses the operands of the rows above -/

theorem test_illcmd_command_code_ill_formed : ¬ (Instr.illcmd 0x01).WellFormed ∧ ¬ (Instr.illcmd 0x02).WellFormed
    ∧ ¬ (Instr.illcmd 0x03).WellFormed := by decide
theorem test_hwr_to_cmd_ill_formed : ¬ (Instr.hwr 0x4C 0x01).WellFormed := by decide
theorem test_sets_too_long_ill_formed : (ScriptLine.sets .sp localhost).wellFormed = false := by decide
theorem test_loadf_wrong_count_ill_formed : (ScriptLine.loadf 54 hello).wellFormed = false := by decide

/-! ## Decoding: words written out from spec/30 R54, R55 and spec/95 section 3.5 -/

theorem test_decode_cks : decode 0b10100110000000001#17 = .cks := by decide
theorem test_decode_enc : decode 0b10100110000000010#17 = .enc := by decide
theorem test_decode_dec : decode 0b10100110000000011#17 = .dec := by decide
theorem test_decode_illcmd : decode 0b10100110000000000#17 = .illcmd 0x00 ∧ decode 0b10100110011111111#17 = .illcmd 0xFF := by
  decide
/-- H2 and H13 of spec/95 section 3.5. -/
theorem test_decode_hwr : decode 0b10100000011111111#17 = .hwr 0x40 0xFF ∧ decode 0b11111111101010101#17 = .hwr 0xFF 0x55 := by
  decide
/-- H1 of spec/95 section 3.5, and ignored bits 7:0. -/
theorem test_decode_hrd : decode 0b00100101000000000#17 = .hrd 0x4A ∧ decode 0b00100101011111111#17 = .hrd 0x4A := by
  decide
theorem test_decode_bytes_rejects : decodeBytes [0x01, 0x4C] = .error .truncated
    ∧ decodeBytes [0x01, 0x4C, 0x02] = .error .widerThanWord ∧ decodeBytes [0x01, 0x4C, 0x01, 7] = .ok (.cks, [7]) := by
  decide
theorem test_table_words : decodeTableWord 24 0x14C02 = some .enc ∧ decodeTableWord 24 0x34C02 = none := by decide

/-! ## The instructions -/

/-- Rows 14 and 29 of spec/95 section 3.1. -/
theorem test_cks_hello : (after .cks e2Regs).ck = #v[0x34, 0x31, 0x38] := by decide
theorem test_cks_largest : (after .cks { e2Regs with pl := Vector.replicate 16 0xFF, pll := 16 }).ck
    = #v[0x34, 0x30, 0x30] := by decide

/-- E2 and, for the payload of E5, its code and truncated field (spec/95 section 3.3). -/
theorem test_enc_e2 : (after .enc e2Regs).fb.toList = e2Bytes := by decide
theorem test_enc_truncates : ((after .enc { e2Regs with pl := padR shutdown 16 0, pll := 11 }).fb.toList.drop 45)
    = [0x31, 0x30, 0x30, 0x3C, 0x73, 0x68, 0x75, 0x74, 0x64] := by decide

/-- X1 and X10 of spec/95 section 3.4. -/
theorem test_dec_e2 : (after .dec e2Buffer).spl = 4 ∧ (after .dec e2Buffer).shl = 9 ∧ (after .dec e2Buffer).pll = 6
    ∧ (after .dec e2Buffer).sp = #v[0x35, 0x30, 0x30, 0x30, 0x20, 0x20] ∧ (after .dec e2Buffer).ck = #v[0x34, 0x31, 0x38]
    ∧ (after .dec e2Buffer).last = 1 ∧ (after .dec e2Buffer).status = 0x00 := by decide
theorem test_dec_first_failing_check : (after .dec
    { e2Buffer with fb := ((e2Buffer.fb.set 18 0x61).set 40 0x20).set 44 0x32 }).status = 0x05 := by decide

/-- H16 of spec/95 section 3.5. -/
theorem test_illcmd : (after (.illcmd 0x00) e2Regs).status = 0x0F := by decide

/-- H2 and H7 of spec/95 section 3.5. -/
theorem test_hwr_clamps : (after (.hwr 0x40 0xFF) State.reset).shl = 16 := by decide
theorem test_hwr_seq_bit : (after (.hwr 0x45 0x31) State.reset).seq = 1 ∧ (after (.hwr 0x45 0x02) State.reset).seq = 0 := by
  decide

/-- The example of spec/43 R105, and a reserved address. -/
theorem test_hrd_frame_byte : (after (.hrd 0xAD) e2Buffer).reply = some 0x34 := by decide
theorem test_hrd_reserved : (after (.hrd 0xFF) e2Buffer).reply = some 0x00 := by decide

/-- H23 of spec/95 section 3.5, the reset part. -/
theorem test_reset_event : step { e2Regs with script := [.reset] } = .next State.reset := rfl

/-- The first ten words of program P1 (spec/95 section 4). -/
theorem test_script_sets : (ScriptLine.sets .sh localhost).events
    = [0x10031#17, 0x10132#17, 0x10237#17, 0x1032E#17, 0x10430#17, 0x1052E#17, 0x10630#17, 0x1072E#17, 0x10831#17,
        0x14009#17].map .word := by decide

/-- Lines of program P1, and the three names of spec/30 R61's example (spec/95 section 4, spec/30 R61). -/
theorem test_read_sets : readLine "SETS SP, \"5000\"".toList = some [.sets .sp port5000] := by decide
theorem test_read_script : readScript ["RESET".toList, "SETSEQ 0 ; comment".toList, "ENC".toList]
    = some [.reset, .word 0x14500, .word 0x14C02] := by decide
theorem test_read_addresses : readAddr "SHL".toList = some 0x40 ∧ readAddr "FB+44".toList = some 0xAC
    ∧ readAddr "PL+2".toList = some 0x32 ∧ readAddr "PL+16".toList = none := by decide

/-- Helper vectors of spec/95 section 3.2: `stripR(" 5000 ", 0x20)` = 5 and `stripR(00 41 00 00 00 00, 0x00)` = 2. -/
theorem test_stripR : stripR (#v[0x20, 0x35, 0x30, 0x30, 0x30, 0x20] : Vector Byte 6) 0x20 = 5
    ∧ stripR (#v[0x00, 0x41, 0x00, 0x00, 0x00, 0x00] : Vector Byte 6) 0x00 = 2 := by decide
/-- `isnum` of "123456", "50 00 " and "5000" with two 0x00 (spec/95 section 3.2). -/
theorem test_isnum : isnum #v[0x31, 0x32, 0x33, 0x34, 0x35, 0x36] = true ∧ isnum #v[0x35, 0x30, 0x20, 0x30, 0x30, 0x20] = false
    ∧ isnum #v[0x35, 0x30, 0x30, 0x30, 0x00, 0x00] = false := by decide

/-! ## Witnesses: the hypotheses of the obligations can be met -/

theorem e2Regs_inv : e2Regs.Inv := ⟨by decide, by decide, by decide, by decide, by decide, by decide, by decide⟩

/-- Every length at its bound. -/
def fullRegs : State := { e2Regs with shl := 16, spl := 6, dhl := 16, dpl := 6, pll := 16 }

theorem fullRegs_inv : fullRegs.Inv := ⟨by decide, by decide, by decide, by decide, by decide, by decide, by decide⟩

theorem e2Buffer_decodable : e2Buffer.Decodable := ⟨by decide, by decide, by decide, by decide⟩

theorem e2Regs_portsNumeric : e2Regs.PortsNumeric := ⟨e2Regs_inv, by decide, by decide⟩

theorem e2Regs_roundTrips : e2Regs.RoundTrips := ⟨e2Regs_portsNumeric, by decide, by decide, by decide, by decide⟩

/-- Empty hosts, one-digit ports, an empty payload. -/
theorem small_roundTrips : { e2Regs with shl := 0, dhl := 0, spl := 1, dpl := 1, pll := 0 }.RoundTrips :=
  ⟨⟨⟨by decide, by decide, by decide, by decide, by decide, by decide, by decide⟩, by decide, by decide⟩,
    by decide, by decide, by decide, by decide⟩

theorem witness_StepKeepsStateInvariants : ∃ s t : State, s.Inv ∧ step s = .next t :=
  ⟨fullRegs, _, fullRegs_inv, rfl⟩
theorem witness_StepKeepsStatusLegal : ∃ s t : State, s.StatusLegal ∧ step s = .next t :=
  ⟨{ e2Buffer with status := 0x0F }, _, by decide, rfl⟩
theorem witness_ResetEventGivesAllZero : ∃ (s : State) (rest : List HostEvent), s.script = .reset :: rest :=
  ⟨{ e2Regs with script := [.reset] }, [], rfl⟩
theorem witness_StepRunsDecodedTransaction : ∃ (s : State) (i : Instr), i.WellFormed ∧ s.script = .word (encode i) :: [] :=
  ⟨{ e2Regs with script := [.word (encode .enc)] }, .enc, trivial, rfl⟩
theorem witness_IdleBlockHoldsState : State.reset.script = [] := rfl
theorem witness_PlacedWordRunsNext : decodeTableWord 24 0x1FFFF = some (.hwr 0xFF 0xFF) := by decide
theorem witness_DecodeOfEncode : Instr.WellFormed .cks ∧ Instr.WellFormed .enc ∧ Instr.WellFormed .dec
    ∧ (Instr.illcmd 0x00).WellFormed ∧ (Instr.illcmd 0x04).WellFormed ∧ (Instr.hwr 0x4B 0x00).WellFormed
    ∧ (Instr.hwr 0x4D 0xFF).WellFormed ∧ (Instr.hrd 0x4C).WellFormed := by decide
theorem witness_EncodeOfDecode : (0x10000#17).getLsbD 16 = true ∧ (0x0FFFF#17).getLsbD 16 = false := by decide
theorem witness_CommandCodesDecode : (0x00#8 = 0x00#8 ∨ 0x04#8 ≤ 0x00#8) ∧ 0x04#8 ≤ 0x04#8 ∧ 0x04#8 ≤ 0xFF#8 := by decide
theorem witness_TransactionKindsDecode : 0x4B#8 ≠ 0x4C#8 ∧ 0x4D#8 ≠ 0x4C#8 := by decide
/-- Both ends of every range of reserved addresses are in it, and their neighbours are not. -/
theorem witness_ReservedAddr : (∀ a ∈ [0x16#8, 0x17#8, 0x2E#8, 0x2F#8, 0x4D#8, 0x7F#8, 0xB6#8, 0xFF#8], ReservedAddr a)
    ∧ ∀ a ∈ [0x15#8, 0x18#8, 0x2D#8, 0x30#8, 0x4C#8, 0x80#8, 0xB5#8], ¬ ReservedAddr a := by decide
theorem witness_IgnoredAddr : IgnoredAddr 0x46 ∧ IgnoredAddr 0x4A ∧ ¬ IgnoredAddr 0x45 ∧ ¬ IgnoredAddr 0x4B := by decide
/-- The hypothesis on PLL at its bound, with the terminator in the last byte and without one. -/
theorem witness_LastIsViewOfPayload :
    { fullRegs with pl := (Vector.replicate 16 0).set 15 0x2E }.HoldsTerminator ∧ fullRegs.pll.toNat ≤ 16
      ∧ ¬ { fullRegs with pl := Vector.replicate 16 0 }.HoldsTerminator := by decide
/-- The range of `d` in the last clause, at its ends. -/
theorem witness_HwrWritesNamedRegister : (0x00#8 = 0x00#8 ∨ 0x04#8 ≤ 0x00#8) ∧ ¬ (0x03#8 = 0x00#8 ∨ 0x04#8 ≤ 0x03#8) := by
  decide
/-- Inside and outside the payload's addresses, neighbours of the command address among them. -/
theorem witness_WriteChangesOnlyItsAddress : 0x4B#8 ≠ 0x4C#8 ∧ 0x3F#8 ≤ 0x3F#8 ∧ ¬ (0x30#8 ≤ 0x40#8 ∧ 0x40#8 ≤ 0x3F#8)
    ∧ 0x40#8 ≠ 0x44#8 := by decide
theorem witness_CommandWriteRunsCommand : ∃ (s : State) (d : Byte) (rest : List HostEvent),
    s.script = .word (BitVec.ofNat 17 (0x14C00 + d.toNat)) :: rest :=
  ⟨{ e2Regs with script := [.word 0x14CFF] }, 0xFF, [], rfl⟩
theorem witness_IllegalCommandRecordsCauseSeven : ∀ d ∈ [0x00#8, 0x04#8, 0xFF#8], d ≠ 0x01#8 ∧ d ≠ 0x02#8 ∧ d ≠ 0x03#8 := by
  decide
theorem witness_OnlyDecAndIllegalCodesRaise : ¬ isCommandCode 0x00 ∧ ¬ isCommandCode 0x04 ∧ isCommandCode 0x03 := by decide
theorem witness_ErrorsArePrecise : ∃ t, exec .dec State.reset = .next t ∧ t.err = 1 ∧ t.status ≠ State.reset.status :=
  ⟨after .dec State.reset, rfl, by decide, by decide⟩
/-- Each register's clause has a transaction that changes the register. -/
theorem witness_RegistersWrittenOnlyByTheirWriters :
    (after (.hrd 0x00) State.reset).reply ≠ none ∧ (after .cks State.reset).ck ≠ State.reset.ck
      ∧ (after (.illcmd 0) State.reset).status ≠ 0 ∧ (after .enc State.reset).fb ≠ State.reset.fb
      ∧ (after (.hwr 0x4B 1) State.reset).fbl ≠ 0 ∧ (after (.hwr 0x0F 1) State.reset).sh ≠ State.reset.sh
      ∧ (after (.hwr 0x15 1) State.reset).sp ≠ State.reset.sp ∧ (after (.hwr 0x27 1) State.reset).dh ≠ State.reset.dh
      ∧ (after (.hwr 0x2D 1) State.reset).dp ≠ State.reset.dp ∧ (after (.hwr 0x3F 1) State.reset).pl ≠ State.reset.pl
      ∧ (after (.hwr 0xB5 1) State.reset).fb ≠ State.reset.fb ∧ (after (.hwr 0x40 1) State.reset).shl ≠ 0
      ∧ (after (.hwr 0x41 1) State.reset).spl ≠ 0 ∧ (after (.hwr 0x42 1) State.reset).dhl ≠ 0
      ∧ (after (.hwr 0x43 1) State.reset).dpl ≠ 0 ∧ (after (.hwr 0x44 1) State.reset).pll ≠ 0
      ∧ (after (.hwr 0x45 1) State.reset).seq ≠ 0 := by decide
theorem witness_DecimalTextOfNumber : (0 < 1) ∧ (10 ^ 0 ≤ 9 ∧ 9 < 10 ^ (0 + 1)) ∧ (10 ^ 3 ≤ 1000 ∧ 1000 < 10 ^ (3 + 1)) := by
  decide
theorem witness_ByteSumIsExactUnsigned : ([0x01#8, 0x02#8]).Perm [0x02#8, 0x01#8] ∧ (List.replicate 16 0xFF#8).length ≤ 16
    ∧ (List.replicate 6 0xFF#8).length ≤ 6 := by decide
/-- Payloads whose sums have one, two, three and four digits, at the ends of the ranges: 9, 10, 99, 100, 999, 1000. -/
theorem witness_ChecksumCodeByDigitCount : decstr (byteSum [9]) = [0x39] ∧ decstr (byteSum [10]) = [0x31, 0x30]
    ∧ decstr (byteSum [99]) = [0x39, 0x39] ∧ decstr (byteSum [100]) = [0x31, 0x30, 0x30]
    ∧ decstr (byteSum [0xFF, 0xFF, 0xFF, 0xEA]) = [0x39, 0x39, 0x39]
    ∧ decstr (byteSum [0xFF, 0xFF, 0xFF, 0xEB]) = [0x31, 0x30, 0x30, 0x30] := by decide
/-- The ends of the ranges of the sum, up to the row of 10000 and above. -/
theorem witness_ChecksumCodeByRange : byteSum [9] < 10 ∧ 10 ≤ byteSum [10] ∧ byteSum [99] < 100 ∧ 100 ≤ byteSum [100]
    ∧ byteSum [0xFF, 0xFF, 0xFF, 0xEA] = 999 ∧ byteSum [0xFF, 0xFF, 0xFF, 0xEB] = 1000
    ∧ byteSum (54 :: List.replicate 39 0xFF) = 9999
    ∧ (10 ^ 3 ≤ byteSum (55 :: List.replicate 39 0xFF) / 10 ∧ byteSum (55 :: List.replicate 39 0xFF) / 10 < 10 ^ (3 + 1)) := by
  decide
theorem witness_ChecksumDependsOnSumOnly : byteSum [1, 2] = byteSum [3] ∧ ([1#8, 2#8]).Perm [2#8, 1#8] := by decide
/-- Sums of the three kinds that share the code "100", the one-digit kind, and two sums of one hundred. -/
theorem witness_ChecksumCollisions : byteSum [10] = 10 * 1 + 0 ∧ byteSum [100] = 100 * 1 + 10 * 0
    ∧ byteSum [0xFF, 0xFF, 0xFF, 0xFF, 0x2B] / 100 = 10 * 1 + 0 ∧ byteSum [1] = 1 ∧ byteSum [] = 0
    ∧ byteSum (List.replicate 6 0xFF) / 100 = byteSum (0xFE :: List.replicate 5 0xFF) / 100
    ∧ 1000 ≤ byteSum (List.replicate 6 0xFF) := by decide
theorem witness_CksWritesCodeOfPayload : fullRegs.pll.toNat ≤ 16
    ∧ 418 = ∑ i ∈ Finset.range fullRegs.pll.toNat, (byteAt fullRegs.pl i).toNat := by decide
theorem witness_HelperFunctions : (∀ i < 6, byteAt (Vector.replicate 6 0x20#8) i = 0x20#8)
    ∧ byteAt (padR port5000 6 0x20) 3 ≠ 0x20 ∧ ∀ j < 6, 3 < j → byteAt (padR port5000 6 0x20) j = 0x20 := by decide
theorem witness_EncBuildsFrame : fullRegs.Inv ∧ State.reset.Inv :=
  ⟨fullRegs_inv, ⟨by decide, by decide, by decide, by decide, by decide, by decide, by decide⟩⟩
theorem witness_EncDependsOnElevenRegisters : ∃ s s' : State, s ≠ s' ∧ s.sh = s'.sh ∧ s.shl = s'.shl ∧ s.sp = s'.sp
    ∧ s.spl = s'.spl ∧ s.dh = s'.dh ∧ s.dhl = s'.dhl ∧ s.dp = s'.dp ∧ s.dpl = s'.dpl ∧ s.seq = s'.seq ∧ s.pl = s'.pl
    ∧ s.pll = s'.pll :=
  ⟨e2Regs, { e2Regs with fbl := 1 }, by decide, rfl, rfl, rfl, rfl, rfl, rfl, rfl, rfl, rfl, rfl, rfl⟩
/-- A sum outside 100 to 999, and a byte of the field beyond the payload. -/
theorem witness_EncodedFramesAreCanonical : State.reset.Inv
    ∧ ¬ (100 ≤ byteSum (State.reset.pl.toList.take State.reset.pll.toNat)
        ∧ byteSum (State.reset.pl.toList.take State.reset.pll.toNat) ≤ 999) ∧ State.reset.pll.toNat ≤ 0 :=
  ⟨witness_EncBuildsFrame.2, by decide, by decide⟩
/-- One state for each clause: X2, X6, X9 and X11 of spec/95 section 3.4. -/
theorem witness_DecRaisesFirstFailingCheck : { e2Buffer with fbl := 53 }.fbl ≠ 54#8
    ∧ ((e2With 18 0x61).fbl = 54#8 ∧ ¬ NumericPort (e2With 18 0x61).fb 16)
    ∧ ((e2With 40 0x20).fbl = 54#8 ∧ NumericPort (e2With 40 0x20).fb 16 ∧ ¬ NumericPort (e2With 40 0x20).fb 38)
    ∧ ((e2With 44 0x32).fbl = 54#8 ∧ NumericPort (e2With 44 0x32).fb 16 ∧ NumericPort (e2With 44 0x32).fb 38
        ∧ ¬ GoodSeqByte (e2With 44 0x32).fb) :=
  ⟨by decide, ⟨by decide, by decide⟩, ⟨by decide, by decide, by decide⟩, ⟨by decide, by decide, by decide, by decide⟩⟩
/-- A frame that decodes with either sequence byte: the hypothesis of DecLoadsFrameRegisters, LastAfterDecode,
DecThenEncReproducesFrame, CksAfterDecComputesFieldCode and AckEchoesPayloadAndSequence. -/
theorem witness_Decodable : e2Buffer.Decodable ∧ (e2With 44 0x31).Decodable :=
  ⟨e2Buffer_decodable, ⟨by decide, by decide, by decide, by decide⟩⟩
/-- Both sides of the equivalence in DecThenEncReproducesFrame occur. -/
theorem witness_DecThenEncReproducesFrame :
    (∀ i < 3, byteAt e2Buffer.fb (45 + i) = byteAt (cks (payloadField e2Buffer.fb)) i)
      ∧ ¬ ∀ i < 3, byteAt (e2With 45 0x58).fb (45 + i) = byteAt (cks (payloadField (e2With 45 0x58).fb)) i := by decide
/-- The hypotheses of EncThenDecRoundTrip, CarriedAndComputedCodes and RoundTripLosesTrailingFillOnly, the latter two also
with a payload over six bytes. -/
theorem witness_PortsNumeric : e2Regs.RoundTrips ∧ { e2Regs with pll := 16 }.PortsNumeric :=
  ⟨e2Regs_roundTrips, ⟨⟨by decide, by decide, by decide, by decide, by decide, by decide, by decide⟩, by decide, by decide⟩⟩
theorem witness_SetsLoadsStringRegister : ∃ (s : State) (rest : List HostEvent), port5000.length ≤ StrReg.sp.size
    ∧ s.script = (ScriptLine.sets .sp port5000).events ++ rest :=
  ⟨{ State.reset with script := (ScriptLine.sets .sp port5000).events ++ [.reset] }, [.reset], by decide, rfl⟩
theorem witness_LoadfLoadsFrameBuffer : ∃ (s : State) (rest : List HostEvent), e2Bytes.length = min 55 54
    ∧ s.script = (ScriptLine.loadf 55 e2Bytes).events ++ rest :=
  ⟨{ State.reset with script := (ScriptLine.loadf 55 e2Bytes).events ++ [] }, [], by decide, rfl⟩

end Sys2Proof.Tests
end

/-! PROOFS. The functions of spec/00 on numbers and byte sequences: the decimal text (R9) and the helpers (R8). -/

namespace Sys2Proof.Machine

/-! ## The decimal text of a number (spec/00 R9) -/

/-- Induction along the digits of a number: the last digit is dropped until one is left. -/
theorem digit_induction {motive : Nat → Prop} (one : ∀ n < 10, motive n)
    (more : ∀ n, 10 ≤ n → motive (n / 10) → motive n) (n : Nat) : motive n := by
  induction n using Nat.strong_induction_on with
  | _ n ih =>
    rcases Nat.lt_or_ge n 10 with h | h
    · exact one n h
    · exact more n h (ih _ (by omega))

@[simp] theorem decimalValue_concat (d : List Byte) (b : Byte) :
    decimalValue (d ++ [b]) = 10 * decimalValue d + (b.toNat - 0x30) := by
  simp [decimalValue]

/-- Reading a number's decimal text gives the number back. -/
theorem decimalValue_decstr (n : Nat) : decimalValue (decstr n) = n := by
  induction n using digit_induction with
  | one n h => simp [decstr_of_lt h, decimalValue, toNat_digit h]
  | more n h ih =>
    rw [decstr_of_ge h, decimalValue_concat, ih, toNat_digit (Nat.mod_lt _ (by decide))]
    omega

/-- A digit above zero is not the character "0". -/
theorem digit_ne_zero_char {k : Nat} (hpos : 0 < k) (h : k < 10) : digit k ≠ 0x30#8 := by
  intro heq
  have hval : 0x30 + k = 0x30 := (toNat_digit h).symm.trans (congrArg BitVec.toNat heq)
  omega

/-- No leading zero: dropping last digits leaves the first one, and it is the whole number when one digit is left. -/
theorem head?_decstr_ne_zero_char (n : Nat) : 0 < n → (decstr n).head? ≠ some 0x30#8 := by
  induction n using digit_induction with
  | one n h => simpa [decstr_of_lt h] using fun hpos => digit_ne_zero_char hpos h
  | more n h ih =>
    intro _
    rw [decstr_of_ge h, List.head?_append_of_ne_nil _ (decstr_ne_nil _)]
    exact ih (by omega)

/-- A number between two powers of ten has as many characters as digits. -/
theorem length_decstr (k : Nat) : ∀ n, 10 ^ k ≤ n → n < 10 ^ (k + 1) → (decstr n).length = k + 1 := by
  induction k with
  | zero =>
    intro n _ hlt
    simp [decstr_of_lt (show n < 10 by simpa using hlt)]
  | succ k ih =>
    intro n hle hlt
    have hpos : 0 < 10 ^ k := by positivity
    rw [pow_succ] at hle hlt
    rw [decstr_of_ge (by omega), List.length_append, ih (n / 10) (by omega) (by omega)]
    rfl

/-- Settles O28: the digits, the value and the first character by induction along the digits, the length by induction
on the power of ten. -/
theorem decimalTextOfNumber : Obligations.DecimalTextOfNumber :=
  ⟨rfl, fun n => ⟨fun b hb => (isdigit_iff b).mp (isdigit_of_mem_decstr n b hb), decimalValue_decstr n,
    head?_decstr_ne_zero_char n, fun k => length_decstr k n⟩⟩

/-! ## The helpers on byte sequences (spec/00 R8) -/

/-- `padR` byte by byte: the sequence up to the width, then fill. -/
theorem byteAt_padR (s : List Byte) {W i : Nat} (P : Byte) (hi : i < W) :
    byteAt (padR s W P) i = if i < min s.length W then s.getD i 0#8 else P := by
  split
  · next h =>
    have hs : i < s.length := (lt_min_iff.mp h).1
    rw [byteAt_padR_lt P hi hs, List.getD_eq_getElem _ _ hs]
  · next h => exact byteAt_padR_ge P hi (by omega)

/-- An array of fill bytes holds the empty text. -/
theorem stripR_eq_zero {W : Nat} {f : Vector Byte W} {P : Byte} (hfill : ∀ i < W, byteAt f i = P) :
    stripR f P = 0 :=
  (stripR_eq_iff f P 0).mpr ⟨Nat.zero_le W, fun i hi _ => by simpa using hfill i hi, fun h => absurd h (lt_irrefl 0)⟩

/-- The text ends at the last byte that is not fill. -/
theorem stripR_eq_succ {W i : Nat} {f : Vector Byte W} {P : Byte} (hi : i < W) (hne : byteAt f i ≠ P)
    (hfill : ∀ j < W, i < j → byteAt f j = P) : stripR f P = i + 1 :=
  (stripR_eq_iff f P (i + 1)).mpr ⟨hi, fun j hj hij => by simpa using hfill j hj hij, fun _ => by simpa using hne⟩

/-- `isnum` asks for a text of one digit or more; what follows the text is spaces by `stripR`'s own answer. -/
theorem isnum_iff (f : Vector Byte 6) :
    isnum f = true ↔ 1 ≤ stripR f 0x20#8 ∧ ∀ i < stripR f 0x20#8, isdigit (byteAt f i) = true := by
  obtain ⟨hle, hfill, -⟩ := stripR_textOf f 0x20#8
  simp only [isnum_iff_portOf, PortOf, isdigit_iff, Nat.zero_add] at hfill ⊢
  exact ⟨fun ⟨hpos, _, hdig, _⟩ => ⟨hpos, hdig⟩, fun ⟨hpos, hdig⟩ => ⟨hpos, hle, hdig, hfill⟩⟩

/-- Settles O35, from what each helper answers. -/
theorem helperFunctions : Obligations.HelperFunctions :=
  ⟨fun s _ P _ hi => byteAt_padR s P hi, fun _ _ _ => ⟨stripR_eq_zero, fun _ => stripR_eq_succ⟩, isdigit_iff, isnum_iff⟩

end Sys2Proof.Machine

/-! PROOFS. The state of spec/10: reset (R27) and the view LAST (R22). -/

namespace Sys2Proof.Machine

/-! ## The view LAST (spec/10 R22) -/

/-- A byte is in the string of an array register exactly when it stands below the length. -/
theorem mem_prefixOf_iff {W : Nat} (v : Vector Byte W) {n : Byte} (hn : n.toNat ≤ W) (b : Byte) :
    b ∈ prefixOf v n ↔ ∃ i < n.toNat, byteAt v i = b := by
  simp only [List.mem_iff_getElem, getElem_prefixOf, length_prefixOf, min_eq_left hn, exists_prop]

/-- The view by the supplied payload's bytes, for a PLL within spec/10 R23. -/
theorem State.last_eq_ite {s : State} (hpll : s.pll.toNat ≤ 16) :
    s.last = if s.HoldsTerminator then 1#1 else 0#1 := by
  have hmem : 46#8 ∈ s.payload ↔ s.HoldsTerminator := mem_prefixOf_iff s.pl hpll 46#8
  simp only [State.last, List.any_beq', List.contains_iff_mem, hmem]

/-- A read of address LAST returns the view as a byte. -/
theorem exec_hrd_last (s : State) : exec (.hrd 0x49#8) s = .next { s with reply := some (s.last.setWidth 8) } := rfl

/-- Settles O18: the view is 1 when the terminator is a member of the payload, and the payload is a prefix of PL. -/
theorem lastIsViewOfPayload : Obligations.LastIsViewOfPayload := by
  refine ⟨fun s hpll => ?_, fun s t => State.last_congr⟩
  rw [exec_hrd_last, State.last_eq_ite hpll]
  by_cases h : s.HoldsTerminator
  · rw [if_pos h]
    exact ⟨fun _ => rfl, fun hn => absurd h hn, fun _ => h, fun _ => rfl⟩
  · rw [if_neg h]
    exact ⟨fun hp => absurd hp h, fun _ => rfl, fun h01 => absurd h01 (by decide), fun hp => absurd hp h⟩

/-! ## Reset (spec/10 R27) -/

/-- An array of zero bytes reads zero at every index, beyond its size too. -/
@[simp] theorem byteAt_replicate_zero (W i : Nat) : byteAt (Vector.replicate W 0#8) i = 0#8 := by
  rcases Nat.lt_or_ge i W with h | h
  · rw [byteAt_eq _ _ h, Vector.getElem_replicate]
  · simp [byteAt, h]

/-- Settles O1: the arrays are all zero bytes, the lengths, SEQ and STATUS are zero, and an empty payload holds no
terminator. -/
theorem resetIsAllZero : Obligations.ResetIsAllZero :=
  ⟨fun i _ => ⟨byteAt_replicate_zero 16 i, byteAt_replicate_zero 16 i, byteAt_replicate_zero 16 i⟩,
    fun i _ => ⟨byteAt_replicate_zero 6 i, byteAt_replicate_zero 6 i⟩, rfl, rfl, rfl, rfl, rfl,
    fun i _ => byteAt_replicate_zero 3 i, rfl, fun i _ => byteAt_replicate_zero 54 i, rfl, rfl, rfl, rfl, rfl, rfl⟩

end Sys2Proof.Machine

/-! PROOFS. The register map of spec/20: the reserved addresses (R32). -/

namespace Sys2Proof.Machine

/-! ## Reserved addresses (spec/20 R32) -/

/-- CMD is not a reserved address, so a write of a reserved one runs no command. -/
theorem ReservedAddr.ne_addrCMD {a : Byte} (h : ReservedAddr a) : a ≠ Config.addrCMD := by
  intro hcmd
  have hloc : locate a = .cmd := (locate_eq_cmd_iff a).mpr hcmd
  rw [locate_reserved a h] at hloc
  cases hloc

/-- A read of a reserved address returns 0x00. -/
theorem exec_hrd_of_reserved {a : Byte} (h : ReservedAddr a) (s : State) :
    exec (.hrd a) s = .next { s with reply := some 0x00#8 } := by
  rw [exec_hrd, State.read, locate_reserved a h]
  rfl

/-- A write of a reserved address is ignored. -/
theorem exec_hwr_of_reserved {a : Byte} (h : ReservedAddr a) (d : Byte) (s : State) :
    exec (.hwr a d) s = .next s := by
  rw [exec_hwr_plain h.ne_addrCMD, locate_reserved a h]
  rfl

/-- Settles O17: a reserved address locates no register and is not CMD, so a read answers 0x00 and a write is a plain
one that stores nothing. -/
theorem reservedAddressesInert : Obligations.ReservedAddressesInert :=
  fun s _ d h => ⟨exec_hrd_of_reserved h s, exec_hwr_of_reserved h d s⟩

end Sys2Proof.Machine

/-! PROOFS. The encodings of spec/30: the transaction words (R53 to R55) and the frames that DEC refuses (R58). -/

namespace Sys2Proof

/-! ## The word's number and its decoding (spec/30 R53 to R55) -/

/-- A word's number is the sum of its three fields by place value. -/
theorem TxWord.toNat_eq_fields (w : TxWord) :
    w.toNat = w.isWrite.toNat * 0x10000 + w.addr.toNat * 256 + w.data.toNat := by
  have hlt := w.isLt
  simp only [TxWord.isWrite, TxWord.addr, TxWord.data, BitVec.getLsbD, Nat.toNat_testBit, BitVec.extractLsb'_toNat,
    Nat.shiftRight_eq_div_pow]
  omega

theorem TxWord.toNat_build (f : BitVec 1) (a d : Byte) :
    (TxWord.build f a d).toNat = f.toNat * 0x10000 + a.toNat * 256 + d.toNat := by
  have hflag : (f.getLsbD 0).toNat = f.toNat := by
    rw [BitVec.getLsbD, Nat.toNat_testBit, pow_zero, Nat.div_one, Nat.mod_eq_of_lt f.isLt]
  rw [TxWord.toNat_eq_fields, TxWord.isWrite_build, TxWord.addr_build, TxWord.data_build, hflag]

/-- The word written as a number is the word built from its fields. -/
theorem TxWord.ofNat_eq_build (f : BitVec 1) (a d : Byte) :
    BitVec.ofNat 17 (f.toNat * 0x10000 + a.toNat * 256 + d.toNat) = TxWord.build f a d := by
  rw [← TxWord.toNat_build, BitVec.ofNat_toNat, BitVec.setWidth_eq]

/-- A word with the write flag clear is a read, whatever its data bits (R53). -/
theorem decode_build_read (a z : Byte) : decode (TxWord.build 0#1 a z) = .hrd a := by
  rw [decode_of_read (TxWord.isWrite_build 0#1 a z), TxWord.addr_build]

/-- A write to any address but CMD is a plain one (R54). -/
theorem decode_build_write {a : Byte} (ha : a ≠ Config.addrCMD) (d : Byte) :
    decode (TxWord.build 1#1 a d) = .hwr a d := by
  rw [decode_of_write (TxWord.isWrite_build 1#1 a d) (by rwa [TxWord.addr_build]), TxWord.addr_build, TxWord.data_build]

/-- A write to CMD of a byte that is no command code is the illegal command (R55). -/
theorem decode_build_illcmd {d : Byte} (hd : ¬ isCommandCode d) :
    decode (TxWord.build 1#1 Config.addrCMD d) = .illcmd d := by
  obtain ⟨hcks, henc, hdec⟩ : d ≠ Config.codeCKS ∧ d ≠ Config.codeENC ∧ d ≠ Config.codeDEC := by
    simpa only [isCommandCode, not_or] using hd
  rw [decode_of_command (TxWord.isWrite_build 1#1 _ d) (TxWord.addr_build _ _ d), TxWord.data_build, if_neg hcks,
    if_neg henc, if_neg hdec]

/-- The bytes 0x00 and 0x04 to 0xFF are no command codes (R55). -/
theorem not_isCommandCode_of_zero_or_ge {d : Byte} (h : d = 0x00#8 ∨ 0x04#8 ≤ d) : ¬ isCommandCode d := by
  rintro (rfl | rfl | rfl) <;> exact absurd h (by decide)

/-- Settles O14: the number is the word built from its fields, and the write flag and the address select the kind. -/
theorem transactionKindsDecode : Obligations.TransactionKindsDecode := by
  refine ⟨fun a z => ?read, fun a d ha => ?write⟩
  case read =>
    have hword : BitVec.ofNat 17 (a.toNat * 256 + z.toNat) = TxWord.build 0#1 a z := by
      simpa using TxWord.ofNat_eq_build 0#1 a z
    rw [hword, decode_build_read]
  case write => exact (congrArg decode (TxWord.ofNat_eq_build 1#1 a d)).trans (decode_build_write ha d)

/-- Settles O13: the three codes are single words, and every other byte falls through the three comparisons. -/
theorem commandCodesDecode : Obligations.CommandCodesDecode :=
  ⟨by decide, by decide, by decide, fun d hd =>
    (congrArg decode (TxWord.ofNat_eq_build 1#1 Config.addrCMD d)).trans
      (decode_build_illcmd (not_isCommandCode_of_zero_or_ge hd))⟩

end Sys2Proof

namespace Sys2Proof.Machine

/-! ## The frames that DEC refuses (spec/30 R58) -/

/-- The checks of DEC in the frame's own terms (spec/42 R92 to R96). -/
theorem decodeFrame_eq (f : Vector Byte 54) (n : Nat) :
    decodeFrame f n = if n ≠ 54 then .error .length else if ¬ NumericPort f 16 then .error .srcPort
      else if ¬ NumericPort f 38 then .error .dstPort else if ¬ GoodSeqByte f then .error .seq else .ok (frameOf f) := by
  simp only [decodeFrame, isnum_slice_iff, GoodSeqByte, not_or, byteAt_eq f 44 (by decide)]

theorem State.decodable_iff (s : State) :
    s.Decodable ↔ s.fbl = 54#8 ∧ NumericPort s.fb 16 ∧ NumericPort s.fb 38 ∧ GoodSeqByte s.fb :=
  ⟨fun h => ⟨h.length, h.srcPort, h.dstPort, h.seqByte⟩, fun ⟨hlen, hsrc, hdst, hseq⟩ => ⟨hlen, hsrc, hdst, hseq⟩⟩

/-- The checks of DEC pass exactly the decodable frames. -/
theorem decodeFrame_eq_ok_iff (s : State) :
    decodeFrame s.fb s.fbl.toNat = .ok (frameOf s.fb) ↔ s.Decodable := by
  have hlen : s.fbl.toNat = 54 ↔ s.fbl = 54#8 := BitVec.toNat_inj (y := 54#8)
  rw [decodeFrame_eq, State.decodable_iff, ← hlen]
  constructor
  · intro hok
    split_ifs at hok with hfbl hsrc hdst hseq
    exact ⟨not_not.mp hfbl, hsrc, hdst, hseq⟩
  · rintro ⟨hfbl, hsrc, hdst, hseq⟩
    rw [if_neg (not_not_intro hfbl), if_neg (not_not_intro hsrc), if_neg (not_not_intro hdst),
      if_neg (not_not_intro hseq)]

/-- Every raise sets STATUS.ERR (spec/60 R119). -/
@[simp] theorem State.raise_err (s : State) (c : Cause) : (s.raise c).err = 1#1 := by
  have hbit : c.statusByte.extractLsb' 0 1 = 1#1 := by cases c <;> decide
  exact hbit

/-- A command that completes clears STATUS.ERR (spec/10 R20). -/
@[simp] theorem State.complete_err (s : State) : s.complete.err = 0#1 := rfl

/-- DEC ends in an error exactly when the frame is not decodable. -/
theorem doDec_err_eq_one_iff (s : State) : (doDec s).err = 1#1 ↔ ¬ s.Decodable := by
  rw [← decodeFrame_eq_ok_iff]
  obtain ⟨_, hchecks, hdec⟩ | ⟨hchecks, hdec⟩ := doDec_cases s
  · simp [hchecks, hdec]
  · simp [hchecks, hdec]

/-- Settles O42: DEC raises exactly when a check fails, and the checks are the four cases of R58. -/
theorem decRefusesExactlyFourCases : Obligations.DecRefusesExactlyFourCases :=
  fun s => ⟨doDec s, exec_dec s, by
    rw [doDec_err_eq_one_iff, State.decodable_iff, not_and_or, not_and_or, not_and_or]⟩

end Sys2Proof.Machine

/-! PROOFS. The checksum of spec/40: the sum of a payload (R70 to R72), its code (R73) and the command CKS (R76). -/

namespace Sys2Proof.Machine

/-! ## The sum (spec/40 R70 to R72) -/

theorem byteSum_eq_sum (p : List Byte) : byteSum p = ∑ i : Fin p.length, p[i].toNat :=
  (Fin.sum_univ_fun_getElem p BitVec.toNat).symm

theorem byteSum_eq_of_perm {p q : List Byte} (h : p.Perm q) : byteSum p = byteSum q :=
  (h.map BitVec.toNat).sum_eq

@[simp] theorem byteSum_replicate (n : Nat) (b : Byte) : byteSum (List.replicate n b) = n * b.toNat := by
  simp [byteSum]

theorem byteSum_le_of_length_le {p : List Byte} {n : Nat} (h : p.length ≤ n) : byteSum p ≤ 255 * n :=
  (byteSum_le p).trans (Nat.mul_le_mul_left 255 h)

/-- Settles O29: no byte is above 255, so the length bounds the sum. -/
theorem byteSumIsExactUnsigned : Obligations.ByteSumIsExactUnsigned := by
  refine ⟨byteSum_eq_sum, fun _ _ => byteSum_eq_of_perm, fun p h => ?_, fun p h => byteSum_le_of_length_le h,
    byteSum_replicate 16 0xFF#8, byteSum_replicate 6 0xFF#8⟩
  have hle : byteSum p ≤ 4080 := byteSum_le_of_length_le h
  exact ⟨hle, by omega⟩

/-! ## The code (spec/40 R73) -/

theorem cks_eq_of_decstr {p d : List Byte} (h : decstr (byteSum p) = d) :
    cks p = padR (keptDigits d) 3 0x30#8 := by
  rw [← h]; rfl

/-- Four digits or more: the first two are kept. -/
theorem keptDigits_of_four_le (a b c d : Byte) (r : List Byte) : keptDigits (a :: b :: c :: d :: r) = [a, b] := by
  simp [keptDigits]

theorem mem_of_mem_keptDigits {d : List Byte} {b : Byte} (h : b ∈ keptDigits d) : b ∈ d := by
  unfold keptDigits at h
  split at h
  · exact List.mem_of_mem_take h
  · exact h

/-- Digits filled up with a digit are digits. -/
theorem isdigit_byteAt_padR {d : List Byte} {W : Nat} {P : Byte} (hd : ∀ b ∈ d, isdigit b = true)
    (hP : isdigit P = true) {i : Nat} (hi : i < W) : isdigit (byteAt (padR d W P) i) = true := by
  rcases Nat.lt_or_ge i d.length with h | h
  · rw [byteAt_padR_lt P hi h]
    exact hd _ (List.getElem_mem h)
  · rwa [byteAt_padR_ge P hi h]

/-- Every character of a code is an ASCII digit. -/
theorem isdigit_byteAt_cks (p : List Byte) {i : Nat} (hi : i < 3) : isdigit (byteAt (cks p) i) = true :=
  isdigit_byteAt_padR (fun b hb => isdigit_of_mem_decstr (byteSum p) b (mem_of_mem_keptDigits hb)) (by decide) hi

/-- Settles O30: the first case keeps two digits, the others keep the whole text, and the fill makes it three. -/
theorem checksumCodeByDigitCount : Obligations.ChecksumCodeByDigitCount := by
  intro p
  refine ⟨fun a b c r h hr => ?four, fun _ _ _ => cks_eq_of_decstr, fun _ _ => cks_eq_of_decstr,
    fun _ => cks_eq_of_decstr, fun i hi => (isdigit_iff _).mp (isdigit_byteAt_cks p hi)⟩
  case four =>
    obtain ⟨d, r, rfl⟩ := List.exists_cons_of_ne_nil hr
    rw [cks_eq_of_decstr h, keptDigits_of_four_le]
    rfl

/-! ## The command CKS (spec/40 R76) -/

/-- The code by ranges of the sum, for a sum of up to four digits. -/
theorem codeOfSum_eq_ite {S : Nat} (h : S < 10000) :
    codeOfSum S = if S < 10 then #v[ascii S, 0x30#8, 0x30#8]
      else if S < 100 then #v[ascii (S / 10), ascii (S % 10), 0x30#8]
      else if S < 1000 then #v[ascii (S / 100), ascii (S / 10 % 10), ascii (S % 10)]
      else #v[ascii (S / 1000), ascii (S / 100 % 10), 0x30#8] := by
  unfold codeOfSum
  split_ifs with h1 h2 h3
  · rw [decstr_of_lt h1]; rfl
  · rw [decstr_two (by omega) h2]; rfl
  · rw [decstr_three (by omega) h3]; rfl
  · rw [decstr_four (by omega) h]; rfl

/-- The sum of a string register's text, by the array's bytes. -/
theorem byteSum_prefixOf {W : Nat} (v : Vector Byte W) (n : Byte) :
    byteSum (prefixOf v n) = ∑ i ∈ Finset.range (min n.toNat W), (byteAt v i).toNat := by
  rw [byteSum_eq_sum, ← length_prefixOf v n, Finset.sum_range]
  exact Finset.sum_congr rfl fun i _ => congrArg BitVec.toNat (getElem_prefixOf v n i i.isLt)

/-- The sum of the supplied payload, for a PLL within spec/10 R23. -/
theorem State.byteSum_payload {s : State} (hpll : s.pll.toNat ≤ 16) :
    byteSum s.payload = ∑ i ∈ Finset.range s.pll.toNat, (byteAt s.pl i).toNat := by
  rw [State.payload, byteSum_prefixOf, min_eq_left hpll]

/-- The supplied payload is at most the PL array, so its sum fits the accumulator (R72). -/
theorem State.byteSum_payload_le (s : State) : byteSum s.payload ≤ 4080 :=
  byteSum_le_of_length_le (n := 16) (by rw [State.payload, length_prefixOf]; exact min_le_right _ 16)

/-- Settles O34: CKS writes CK and STATUS alone, and the sum has at most four digits. -/
theorem cksWritesCodeOfPayload : Obligations.CksWritesCodeOfPayload := by
  refine ⟨by decide, fun s => ⟨doCks s, exec_cks s⟩, fun s S hpll hS => ?_⟩
  have hsum : byteSum s.payload = S := (State.byteSum_payload hpll).trans hS.symm
  have hlt : S < 10000 := by have := s.byteSum_payload_le; omega
  rw [exec_cks, doCks_eq, cks, hsum, codeOfSum_eq_ite hlt]

end Sys2Proof.Machine

/-! PROOFS. The encode function of spec/41 (R81) and the command ENC (R84). -/

namespace Sys2Proof.Machine

/-! ## Bytes of arrays set end to end -/

theorem byteAt_append_left {m n i : Nat} (v : Vector Byte m) (w : Vector Byte n) (hi : i < m) :
    byteAt (v ++ w) i = byteAt v i := by
  rw [byteAt_eq _ i (by omega), byteAt_eq v i hi, Vector.getElem_append_left hi]

theorem byteAt_append_right {m n i : Nat} (v : Vector Byte m) (w : Vector Byte n) (hi : i < n) :
    byteAt (v ++ w) (m + i) = byteAt w i := by
  rw [byteAt_eq _ (m + i) (by omega), byteAt_eq w i hi, Vector.getElem_append_right (by omega) (by omega)]
  simp

theorem byteAt_append_append {l m n i : Nat} (u : Vector Byte l) (v : Vector Byte m) (w : Vector Byte n) (hi : i < m) :
    byteAt (u ++ v ++ w) (l + i) = byteAt v i := by
  rw [byteAt_append_left _ _ (by omega), byteAt_append_right _ _ hi]

/-- `padR` byte by byte: the sequence, then fill. -/
theorem byteAt_padR_eq_getD (s : List Byte) {W i : Nat} (P : Byte) (hi : i < W) :
    byteAt (padR s W P) i = s.getD i P := by
  rw [byteAt_eq _ i hi, getElem_padR]

/-- A string register's text, filled up: its bytes below the length, then fill. -/
theorem getD_prefixOf {W : Nat} (v : Vector Byte W) (n P : Byte) {i : Nat} (hi : i < W) :
    (prefixOf v n).getD i P = if i < n.toNat then byteAt v i else P := by
  split
  · next h =>
    have hlen : i < (prefixOf v n).length := by rw [length_prefixOf]; exact lt_min h hi
    rw [List.getD_eq_getElem _ _ hlen, getElem_prefixOf]
  · next h => exact List.getD_eq_default _ _ (by rw [length_prefixOf]; exact min_le_of_left_le (not_lt.mp h))

/-! ## The fields of an encoded frame (spec/41 R81) -/

section Fields

variable (sh sp dh dp p : List Byte) (q : BitVec 1) {i : Nat}

/-- The seven fields of R81 with their widths and fill bytes written out, the sequence bit as its character. -/
theorem encodeFrame_eq : encodeFrame sh sp dh dp q p = padR sh 16 0x20#8 ++ padR sp 6 0x20#8 ++ padR dh 16 0x20#8
    ++ padR dp 6 0x20#8 ++ #v[if q = 1#1 then 0x31#8 else 0x30#8] ++ cks p ++ padR p 6 0x00#8 := by
  have hchar : 0x30#8 + q.setWidth 8 = if q = 1#1 then 0x31#8 else 0x30#8 := by revert q; decide
  rw [← hchar]
  rfl

/-- Before the sequence byte stand the four address fields. -/
theorem byteAt_encodeFrame_lt (hi : i < 44) :
    byteAt (encodeFrame sh sp dh dp q p) i
      = byteAt (padR sh 16 0x20#8 ++ padR sp 6 0x20#8 ++ padR dh 16 0x20#8 ++ padR dp 6 0x20#8) i := by
  rw [encodeFrame_eq, byteAt_append_left _ _ (by omega), byteAt_append_left _ _ (by omega),
    byteAt_append_left _ _ hi]

theorem byteAt_encodeFrame_srcHost (hi : i < 16) :
    byteAt (encodeFrame sh sp dh dp q p) i = sh.getD i 0x20#8 := by
  rw [byteAt_encodeFrame_lt _ _ _ _ _ _ (by omega), byteAt_append_left _ _ (by omega),
    byteAt_append_left _ _ (by omega), byteAt_append_left _ _ hi, byteAt_padR_eq_getD _ _ hi]

theorem byteAt_encodeFrame_srcPort (hi : i < 6) :
    byteAt (encodeFrame sh sp dh dp q p) (16 + i) = sp.getD i 0x20#8 := by
  rw [byteAt_encodeFrame_lt _ _ _ _ _ _ (by omega), byteAt_append_left _ _ (by omega),
    byteAt_append_append _ _ _ hi, byteAt_padR_eq_getD _ _ hi]

theorem byteAt_encodeFrame_dstHost (hi : i < 16) :
    byteAt (encodeFrame sh sp dh dp q p) (22 + i) = dh.getD i 0x20#8 := by
  rw [byteAt_encodeFrame_lt _ _ _ _ _ _ (by omega)]
  exact (byteAt_append_append _ _ _ hi).trans (byteAt_padR_eq_getD _ _ hi)

theorem byteAt_encodeFrame_dstPort (hi : i < 6) :
    byteAt (encodeFrame sh sp dh dp q p) (38 + i) = dp.getD i 0x20#8 := by
  rw [byteAt_encodeFrame_lt _ _ _ _ _ _ (by omega)]
  exact (byteAt_append_right _ _ hi).trans (byteAt_padR_eq_getD _ _ hi)

theorem byteAt_encodeFrame_seq :
    byteAt (encodeFrame sh sp dh dp q p) 44 = if q = 1#1 then 0x31#8 else 0x30#8 := by
  rw [encodeFrame_eq, byteAt_append_left _ _ (by omega)]
  exact byteAt_append_append (i := 0) _ _ _ (by omega)

theorem byteAt_encodeFrame_code (hi : i < 3) :
    byteAt (encodeFrame sh sp dh dp q p) (45 + i) = byteAt (cks p) i :=
  byteAt_append_append _ _ _ hi

theorem byteAt_encodeFrame_payload (hi : i < 6) :
    byteAt (encodeFrame sh sp dh dp q p) (48 + i) = p.getD i 0x00#8 :=
  (byteAt_append_right _ _ hi).trans (byteAt_padR_eq_getD _ _ hi)

end Fields

/-- Settles O36, field by field. -/
theorem encodeFrameLayout : Obligations.EncodeFrameLayout :=
  fun sh sp dh dp p q =>
    ⟨fun _ => byteAt_encodeFrame_srcHost sh sp dh dp p q, fun _ => byteAt_encodeFrame_srcPort sh sp dh dp p q,
      fun _ => byteAt_encodeFrame_dstHost sh sp dh dp p q, fun _ => byteAt_encodeFrame_dstPort sh sp dh dp p q,
      byteAt_encodeFrame_seq sh sp dh dp p q, fun _ => byteAt_encodeFrame_code sh sp dh dp p q,
      fun _ => byteAt_encodeFrame_payload sh sp dh dp p q⟩

/-! ## The command ENC (spec/41 R84) -/

/-- Settles O37: the frame's fields are those of R81 for the F registers' texts, and ENC writes FB, FBL, CK and STATUS
alone. -/
theorem encBuildsFrame : Obligations.EncBuildsFrame := by
  refine ⟨by decide, fun s => ⟨doEnc s, exec_enc s⟩, fun s _ => ⟨doEnc s, exec_enc s, doEnc_eq s, ?_⟩⟩
  obtain ⟨hsh, hsp, hdh, hdp, hseq, hck, hpl⟩ :=
    encodeFrameLayout s.srcHost s.srcPort s.dstHost s.dstPort s.payload s.seq
  exact ⟨fun i hi => (hsh i hi).trans (getD_prefixOf s.sh s.shl _ hi),
    fun i hi => (hsp i hi).trans (getD_prefixOf s.sp s.spl _ hi),
    fun i hi => (hdh i hi).trans (getD_prefixOf s.dh s.dhl _ hi),
    fun i hi => (hdp i hi).trans (getD_prefixOf s.dp s.dpl _ hi), hseq, hck,
    fun i hi => (hpl i hi).trans (getD_prefixOf s.pl s.pll _ (by omega))⟩

end Sys2Proof.Machine

/-! PROOFS. The command DEC of spec/42: the exceptions it raises (R92 to R97) and the registers it loads (R98). -/

namespace Sys2Proof.Machine

/-! ## The exceptions of DEC (spec/42 R92 to R97) -/

theorem exec_dec_of_error {s : State} {c : Cause} (h : decodeFrame s.fb s.fbl.toNat = .error c) :
    exec .dec s = .next { s with status := c.statusByte } := by
  rw [exec_dec, doDec, h]
  rfl

/-- Settles O40: each clause's hypotheses pass the checks before its own and fail that one. -/
theorem decRaisesFirstFailingCheck : Obligations.DecRaisesFirstFailingCheck := by
  intro s
  have hlen : s.fbl.toNat ≠ 54 ↔ s.fbl ≠ 54#8 := (BitVec.toNat_inj (y := 54#8)).not
  have hchecks := decodeFrame_eq s.fb s.fbl.toNat
  simp only [hlen] at hchecks
  refine ⟨fun hfbl => ?length, fun hfbl hsrc => ?srcPort, fun hfbl hsrc hdst => ?dstPort,
    fun hfbl hsrc hdst hseq => ?seq⟩
  case length =>
    exact exec_dec_of_error (c := .length) (by rw [hchecks, if_pos hfbl])
  case srcPort =>
    exact exec_dec_of_error (c := .srcPort) (by rw [hchecks, if_neg (not_not_intro hfbl), if_pos hsrc])
  case dstPort =>
    exact exec_dec_of_error (c := .dstPort)
      (by rw [hchecks, if_neg (not_not_intro hfbl), if_neg (not_not_intro hsrc), if_pos hdst])
  case seq =>
    exact exec_dec_of_error (c := .seq)
      (by rw [hchecks, if_neg (not_not_intro hfbl), if_neg (not_not_intro hsrc), if_neg (not_not_intro hdst),
        if_pos hseq])

/-! ## The registers that DEC loads (spec/42 R98) -/

/-- A DEC that completes as a record update: the seven fields of R90, with their texts' lengths. -/
theorem exec_dec_of_decodable {s : State} (h : s.Decodable) :
    exec .dec s = .next
      { s with
        sh := slice s.fb 0 16, shl := lengthByte (stripR (slice s.fb 0 16) 0x20#8),
        sp := slice s.fb 16 6, spl := lengthByte (stripR (slice s.fb 16 6) 0x20#8),
        dh := slice s.fb 22 16, dhl := lengthByte (stripR (slice s.fb 22 16) 0x20#8),
        dp := slice s.fb 38 6, dpl := lengthByte (stripR (slice s.fb 38 6) 0x20#8),
        seq := (frameOf s.fb).sequence, ck := slice s.fb 45 3,
        pl := slice s.fb 48 6 ++ Vector.replicate 10 0x00#8,
        pll := lengthByte (stripR (slice s.fb 48 6) 0x00#8), status := 0x00#8 } := by
  simp only [exec_dec, doDec, (decodeFrame_eq_ok_iff s).mpr h, State.complete_eq, State.load, frameOf]

section Field

variable {f : Vector Byte 54} {off W : Nat} {P : Byte}

/-- The length register of a field holds the length of the field's text. -/
theorem textOf_lengthByte_stripR_slice (h : off + W ≤ 54) :
    TextOf f off W P (lengthByte (stripR (slice f off W h) P)).toNat := by
  have hle : stripR (slice f off W h) P ≤ W := stripR_le _ P
  rw [toNat_lengthByte (by omega)]
  exact (stripR_slice_eq_iff f off W h P _).mp rfl

/-- The bytes of a field's register beyond its length are fill. -/
theorem TextOf.byteAt_slice_fill {L i : Nat} (ht : TextOf f off W P L) (h : off + W ≤ 54) (hi : i < W) (hL : L ≤ i) :
    byteAt (slice f off W h) i = P := by
  obtain ⟨-, hfill, -⟩ := ht
  rw [byteAt_slice f off W h hi, hfill i hi hL]

/-- A port field has one length only: that of its text is that of its digits. -/
theorem NumericPort.portOf {L : Nat} (hp : NumericPort f off) (ht : TextOf f off 6 0x20#8 L) : PortOf f off L := by
  obtain ⟨L', -, hport⟩ := hp
  rwa [ht.unique hport.textOf]

end Field

/-- The digit of a good sequence byte. -/
theorem GoodSeqByte.sequence_frameOf {f : Vector Byte 54} (h : GoodSeqByte f) :
    (frameOf f).sequence = if byteAt f 44 = 0x31#8 then 1#1 else 0#1 := by
  have hdigit : (frameOf f).sequence = (byteAt f 44 - 0x30#8).extractLsb' 0 1 := by
    rw [byteAt_eq f 44 (by decide)]
    rfl
  rw [hdigit]
  rcases h with h | h <;> rw [h] <;> rfl

/-- With STATUS 0x00 the invariants of spec/10 R23 are the bounds of the five lengths. -/
theorem State.inv_of_status_zero {s : State} (hstatus : s.status = 0x00#8) (hshl : s.shl.toNat ≤ 16)
    (hspl : s.spl.toNat ≤ 6) (hdhl : s.dhl.toNat ≤ 16) (hdpl : s.dpl.toNat ≤ 6) (hpll : s.pll.toNat ≤ 16) : s.Inv :=
  ⟨hshl, hspl, hdhl, hdpl, hpll, by rw [hstatus]; rfl, fun _ => by rw [State.cause, hstatus]; rfl⟩

/-- Beyond the payload field the PL array holds 0x00. -/
theorem byteAt_append_replicate_zero {m n i : Nat} (v : Vector Byte m) (hi : i < m + n) (hm : m ≤ i) :
    byteAt (v ++ Vector.replicate n 0x00#8) i = 0x00#8 := by
  obtain ⟨j, rfl⟩ := Nat.exists_eq_add_of_le hm
  rw [byteAt_append_right _ _ (by omega), byteAt_replicate_zero]

/-- Beyond the payload's text the PL array holds 0x00, in the field and after it. -/
theorem TextOf.byteAt_payload_fill {f : Vector Byte 54} {L i : Nat} (ht : TextOf f 48 6 0x00#8 L) (hi : i < 16)
    (hL : L ≤ i) : byteAt (slice f 48 6 ++ Vector.replicate 10 0x00#8) i = 0x00#8 := by
  rcases Nat.lt_or_ge i 6 with h | h
  · rw [byteAt_append_left _ _ h, ht.byteAt_slice_fill (by decide) h hL]
  · exact byteAt_append_replicate_zero _ hi h

/-- Settles O41: the registers are the frame's fields, so their bytes, lengths and fill are facts of each field, and the
lengths give the invariants. -/
theorem decLoadsFrameRegisters : Obligations.DecLoadsFrameRegisters := by
  refine ⟨by decide, fun s hs => ⟨_, exec_dec_of_decodable hs, ?_⟩⟩
  dsimp only
  have hsh : TextOf s.fb 0 16 0x20#8 _ := textOf_lengthByte_stripR_slice (by decide)
  have hsp : TextOf s.fb 16 6 0x20#8 _ := textOf_lengthByte_stripR_slice (by decide)
  have hdh : TextOf s.fb 22 16 0x20#8 _ := textOf_lengthByte_stripR_slice (by decide)
  have hdp : TextOf s.fb 38 6 0x20#8 _ := textOf_lengthByte_stripR_slice (by decide)
  have hpl : TextOf s.fb 48 6 0x00#8 _ := textOf_lengthByte_stripR_slice (by decide)
  obtain ⟨-, hsrc, hdst, hseq⟩ := s.decodable_iff.mp hs
  exact ⟨rfl, rfl, rfl, rfl, rfl,
    fun i hi => (byteAt_slice s.fb 0 16 _ hi).trans (by rw [Nat.zero_add]), hsh,
    fun _ => byteAt_slice s.fb 16 6 _, hsrc.portOf hsp,
    fun _ => byteAt_slice s.fb 22 16 _, hdh,
    fun _ => byteAt_slice s.fb 38 6 _, hdst.portOf hdp,
    hseq.sequence_frameOf, fun _ => byteAt_slice s.fb 45 3 _,
    fun _ hi => (byteAt_append_left _ _ hi).trans (byteAt_slice s.fb 48 6 _ hi),
    fun _ hi h6 => byteAt_append_replicate_zero _ hi h6, hpl,
    fun _ => hsh.byteAt_slice_fill _, fun _ => hdh.byteAt_slice_fill _, fun _ => hsp.byteAt_slice_fill _,
    fun _ => hdp.byteAt_slice_fill _, fun _ => hpl.byteAt_payload_fill,
    State.inv_of_status_zero rfl hsh.1 hsp.1 hdh.1 hdp.1 (hpl.1.trans (by decide))⟩

end Sys2Proof.Machine

/-! PROOFS. The host access of spec/43: reads (R105), writes (R106) and the command address (R107). -/

namespace Sys2Proof.Machine

/-! ## Host reads (spec/43 R105) -/

/-- A read returns what its address's location reads. -/
theorem exec_hrd_of_locate {a : Byte} {l : Loc} (h : locate a = l) (s : State) :
    exec (.hrd a) s = .next { s with reply := some (s.readLoc l) } := by
  rw [exec_hrd, State.answer_eq, State.read, h]

/-- A read of an array's address returns the array's byte. -/
theorem exec_hrd_array {s : State} {a : Byte} {l : Loc} {W i : Nat} {v : Vector Byte W} (hloc : locate a = l)
    (hi : i < W) (hread : s.readLoc l = v[i]) : exec (.hrd a) s = .next { s with reply := some (byteAt v i) } := by
  rw [exec_hrd_of_locate hloc, hread, byteAt_eq v i hi]

/-- A bit "extended with zeros" to a byte. -/
theorem setWidth_bit_eq_ite (b : BitVec 1) : b.setWidth 8 = if b = 1#1 then 0x01#8 else 0x00#8 := by
  revert b; decide

/-- A read of LAST returns the view by the supplied payload's bytes, for a PLL within spec/10 R23. -/
theorem exec_hrd_last_eq_ite {s : State} (hpll : s.pll.toNat ≤ 16) :
    exec (.hrd 0x49#8) s = .next { s with reply := some (if s.HoldsTerminator then 0x01#8 else 0x00#8) } := by
  rw [exec_hrd_last, State.last_eq_ite hpll]
  split_ifs <;> rfl

/-- Settles O16: the location at each address is known, and the read returns what the location holds. -/
theorem hrdReturnsMappedByte : Obligations.HrdReturnsMappedByte :=
  fun s =>
    ⟨fun i hi => exec_hrd_array (locate_sh i hi) hi rfl, fun i hi => exec_hrd_array (locate_sp i hi) hi rfl,
      fun i hi => exec_hrd_array (locate_dh i hi) hi rfl, fun i hi => exec_hrd_array (locate_dp i hi) hi rfl,
      fun i hi => exec_hrd_array (locate_pl i hi) hi rfl,
      exec_hrd_of_locate (l := .shl) rfl s, exec_hrd_of_locate (l := .spl) rfl s,
      exec_hrd_of_locate (l := .dhl) rfl s, exec_hrd_of_locate (l := .dpl) rfl s,
      exec_hrd_of_locate (l := .pll) rfl s,
      setWidth_bit_eq_ite s.seq ▸ exec_hrd_of_locate (l := .seq) rfl s,
      fun i hi => exec_hrd_array (locate_ck i hi) hi rfl, exec_hrd_last_eq_ite,
      exec_hrd_of_locate (l := .status) rfl s, exec_hrd_of_locate (l := .fbl) rfl s,
      exec_hrd_of_locate (l := .cmd) rfl s, fun i hi => exec_hrd_array (locate_fb i hi) hi rfl,
      fun _ h => exec_hrd_of_reserved h s⟩

/-! ## Host writes (spec/43 R106) -/

/-- A write to any location but CMD is the location's plain write. -/
theorem exec_hwr_of_locate {a : Byte} {l : Loc} (h : locate a = l) (d : Byte) (s : State)
    (hl : l ≠ .cmd := by simp) : exec (.hwr a d) s = .next (s.writeLoc d l) := by
  have ha : a ≠ Config.addrCMD := fun heq => hl (h.symm.trans ((locate_eq_cmd_iff a).mpr heq))
  rw [exec_hwr_plain ha, h]

/-- The clamp is the minimum of the two bytes (spec/10 R11). -/
theorem clamp_eq_ite (v : Byte) {m : Nat} (hm : m < 256) :
    clamp v m = if v ≤ BitVec.ofNat 8 m then v else BitVec.ofNat 8 m := by
  have hle : v ≤ BitVec.ofNat 8 m ↔ v.toNat ≤ m := by rw [BitVec.le_def, BitVec.toNat_ofNat, Nat.mod_eq_of_lt hm]
  by_cases h : v.toNat ≤ m
  · rw [if_pos (hle.mpr h), clamp, min_eq_left h, BitVec.ofNat_toNat, BitVec.setWidth_eq]
  · rw [if_neg (mt hle.mp h), clamp, min_eq_right (Nat.le_of_not_le h)]

/-- Bit 0 of a byte, as SEQ takes it (spec/10 R15). -/
theorem extractLsb'_zero_one_eq_ite (d : Byte) : d.extractLsb' 0 1 = if d.getLsbD 0 then 1#1 else 0#1 := by
  revert d; decide

/-- The addresses from CK to STATUS are those of the read-only registers (spec/20 R31). -/
theorem locate_of_readOnly {a : Byte} (h : 0x46#8 ≤ a ∧ a ≤ 0x4A#8) :
    (∃ i, locate a = .ck i) ∨ locate a = .last ∨ locate a = .status := by
  revert a; decide

/-- A write of a read-only or reserved address is ignored. -/
theorem exec_hwr_of_ignored {a : Byte} (h : IgnoredAddr a) (d : Byte) (s : State) : exec (.hwr a d) s = .next s := by
  rcases h with hro | hres
  · obtain ⟨i, hck⟩ | hlast | hstatus := locate_of_readOnly hro
    · exact exec_hwr_of_locate hck d s
    · exact exec_hwr_of_locate hlast d s
    · exact exec_hwr_of_locate hstatus d s
  · exact exec_hwr_of_reserved hres d s

/-- A raise of IllegalCommand, the STATUS byte written out (spec/60 R118). -/
theorem State.raise_illegalCmd (s : State) : s.raise .illegalCmd = { s with status := 0x0F#8 } := rfl

/-- A write to CMD of a byte that is no command code raises IllegalCommand (spec/43 R107). -/
theorem issueCommand_of_not_isCommandCode {d : Byte} (hd : ¬ isCommandCode d) (s : State) :
    issueCommand d s = s.raise .illegalCmd := by
  obtain ⟨hcode, -⟩ | ⟨hcode, -⟩ | ⟨hcode, -⟩ | ⟨-, hraise⟩ := issueCommand_cases d s
  · exact absurd (.inl hcode) hd
  · exact absurd (.inr (.inl hcode)) hd
  · exact absurd (.inr (.inr hcode)) hd
  · exact hraise

/-- Settles O19: a plain write is that of the location at the address, and a write to CMD runs the coded command. -/
theorem hwrWritesNamedRegister : Obligations.HwrWritesNamedRegister := by
  intro s d
  have h16 : clamp d 16 = if d ≤ 16#8 then d else 16#8 := clamp_eq_ite d (by decide)
  have h6 : clamp d 6 = if d ≤ 6#8 then d else 6#8 := clamp_eq_ite d (by decide)
  rw [← h16, ← h6, ← extractLsb'_zero_one_eq_ite]
  exact ⟨fun i h => exec_hwr_of_locate (locate_sh i h) d s, fun i h => exec_hwr_of_locate (locate_sp i h) d s,
    fun i h => exec_hwr_of_locate (locate_dh i h) d s, fun i h => exec_hwr_of_locate (locate_dp i h) d s,
    fun i h => exec_hwr_of_locate (locate_pl i h) d s,
    exec_hwr_of_locate (l := .shl) rfl d s, exec_hwr_of_locate (l := .spl) rfl d s,
    exec_hwr_of_locate (l := .dhl) rfl d s, exec_hwr_of_locate (l := .dpl) rfl d s,
    exec_hwr_of_locate (l := .pll) rfl d s, exec_hwr_of_locate (l := .seq) rfl d s,
    exec_hwr_of_locate (l := .fbl) rfl d s, fun i h => exec_hwr_of_locate (locate_fb i h) d s,
    fun _ h => exec_hwr_of_ignored h d s,
    exec_hwr_cmd Config.codeCKS s, exec_hwr_cmd Config.codeENC s, exec_hwr_cmd Config.codeDEC s,
    fun hd => by
      rw [exec_hwr_cmd, issueCommand_of_not_isCommandCode (not_isCommandCode_of_zero_or_ge hd), State.raise_illegalCmd]⟩

/-! ## The command address (spec/43 R107) -/

/-- CMD reads 0x00 in every state (spec/10 R21). -/
theorem State.read_addrCMD (s : State) : s.read Config.addrCMD = 0x00#8 := rfl

/-- Settles O21: the word decodes to the coded command, which the step runs after accepting the word. -/
theorem commandWriteRunsCommand : Obligations.CommandWriteRunsCommand := by
  intro s d rest hscript
  obtain ⟨hcks, henc, hdec, hillcmd⟩ := commandCodesDecode
  have hstep {i : Instr} (hd : decode (BitVec.ofNat 17 (0x14C00 + d.toNat)) = i) :
      step s = exec i { s with script := rest, reply := none } := by
    rw [step_word hscript, hd, State.accept_eq]
  refine ⟨?cks, ?enc, ?dec, fun hd => ?illcmd, fun t _ => t.read_addrCMD⟩
  case cks => rintro rfl; exact hstep hcks
  case enc => rintro rfl; exact hstep henc
  case dec => rintro rfl; exact hstep hdec
  case illcmd => rw [hstep (hillcmd d hd), exec_illcmd, State.raise_illegalCmd]

end Sys2Proof.Machine

/-! PROOFS. The exceptions of spec/60: who raises which (R115), the illegal command (R118), and what a raise writes
(R119). -/

namespace Sys2Proof.Machine

/-! ## Taking an exception (spec/60 R118, R119) -/

/-- Every raise leaves its cause's number in STATUS.CAUSE (spec/60 R119). -/
@[simp] theorem State.raise_cause (s : State) (c : Cause) : (s.raise c).cause = c.code := by
  have hfield : c.statusByte.extractLsb' 1 3 = c.code := by cases c <;> decide
  exact hfield

/-- Settles O23: a raise writes its cause's STATUS byte, whose fields are ERR = 1 and the cause's number. -/
theorem raiseWritesStatusOnly : Obligations.RaiseWritesStatusOnly :=
  fun s => ⟨s.raise_eq .length, s.raise_eq .srcPort, s.raise_eq .dstPort, s.raise_eq .seq, s.raise_illegalCmd,
    fun c => ⟨s.raise_status c, s.raise_err c, s.raise_cause c⟩⟩

/-- Settles O22: the illegal command is the raise of cause 7, whatever its byte. -/
theorem illegalCommandRecordsCauseSeven : Obligations.IllegalCommandRecordsCauseSeven := by
  intro s d _ _ _
  rw [exec_illcmd]
  refine ⟨by rw [State.raise_illegalCmd], ?_⟩
  rintro _ ⟨⟩
  exact ⟨s.raise_err .illegalCmd, s.raise_cause .illegalCmd⟩

/-! ## The instructions that raise (spec/60 R115) -/

/-- The causes of FrameFormatError are numbered 1 to 4 (spec/60 R116). -/
theorem Cause.exn_eq_frameFormatError_iff (c : Cause) :
    c.exn = .frameFormatError ↔ c.code ∈ [1#3, 2#3, 3#3, 4#3] := by
  cases c <;> decide

/-- A check of DEC that fails is a FrameFormatError (spec/42 R92 to R96). -/
theorem exn_of_decodeFrame_eq_error {f : Vector Byte 54} {n : Nat} {c : Cause} (h : decodeFrame f n = .error c) :
    c.exn = .frameFormatError := by
  rw [decodeFrame_eq] at h
  split_ifs at h <;> cases h <;> rfl

/-- DEC completes, or raises a FrameFormatError. -/
theorem doDec_status_or_cause (s : State) :
    (doDec s).status = 0x00#8 ∨ ((doDec s).err = 1#1 ∧ (doDec s).cause ∈ [1#3, 2#3, 3#3, 4#3]) := by
  obtain ⟨c, hchecks, hdec⟩ | ⟨-, hdec⟩ := doDec_cases s
  · rw [hdec, State.raise_cause, ← c.exn_eq_frameFormatError_iff]
    exact .inr ⟨s.raise_err c, exn_of_decodeFrame_eq_error hchecks⟩
  · rw [hdec]
    exact .inl (State.complete_status _)

/-- Settles O24: CKS and ENC complete, an access of the register map leaves STATUS alone, and DEC raises only what its
checks raise. -/
theorem onlyDecAndIllegalCodesRaise : Obligations.OnlyDecAndIllegalCodesRaise := by
  intro s
  refine ⟨⟨_, exec_cks s, ?cks⟩, ⟨_, exec_enc s, ?enc⟩, fun a => ⟨_, exec_hrd a s, ?hrd⟩,
    fun a d ha => ⟨_, exec_hwr_plain ha d s, ?hwr⟩, ⟨_, exec_dec s, doDec_status_or_cause s⟩,
    fun d _ => ⟨_, exec_illcmd d s, s.raise_err .illegalCmd, s.raise_cause .illegalCmd⟩⟩
  case cks => exact State.complete_err _
  case enc => exact State.complete_err _
  case hrd => exact s.answer_status _
  case hwr =>
    obtain ⟨-, hstatus, -⟩ := s.writeLoc_readOnly d (locate a)
    exact hstatus

end Sys2Proof.Machine

/-! PROOFS. The reset event of spec/70 (R130). -/

namespace Sys2Proof.Machine

/-! ## The reset event (spec/70 R130) -/

/-- The state after a reset, every field written out: nothing of the state before it is left. -/
theorem resetBlock_eq (rest : List HostEvent) :
    resetBlock rest =
      { sh := Vector.replicate 16 0#8, shl := 0#8, sp := Vector.replicate 6 0#8, spl := 0#8
        dh := Vector.replicate 16 0#8, dhl := 0#8, dp := Vector.replicate 6 0#8, dpl := 0#8
        seq := 0#1, ck := Vector.replicate 3 0#8, pl := Vector.replicate 16 0#8, pll := 0#8
        fb := Vector.replicate 54 0#8, fbl := 0#8, status := 0x00#8, script := rest, reply := none } := rfl

/-- Settles O5: a reset event at the head of the stream makes the step end in the reset block, which takes only the
rest of the stream from the state before. -/
theorem resetEventGivesAllZero : Obligations.ResetEventGivesAllZero := by
  intro s rest hscript
  rw [step_reset hscript, resetBlock_eq]

end Sys2Proof.Machine

/-! PROOFS. The encodings of spec/30 in both directions (R53 to R56), the opcode table and the placed word. -/

namespace Sys2Proof

/-! ## Encode, then decode (spec/30 R53 to R55) -/

/-- Settles O10, constructor by constructor: well-formedness is what keeps a plain write off CMD and an illegal command
off the three codes. -/
theorem decodeOfEncode : Obligations.DecodeOfEncode := by
  intro i hi
  obtain ⟨hcks, henc, hdec, -⟩ := commandCodesDecode
  cases i with
  | cks => exact hcks
  | enc => exact henc
  | dec => exact hdec
  | illcmd d => exact decode_build_illcmd hi
  | hwr a d => exact decode_build_write hi d
  | hrd a => exact decode_build_read a 0x00#8

/-! ## Decode, then encode (spec/30 R53 to R56) -/

/-- A write of a command code is that command's word. -/
theorem exists_encode_eq_of_isCommandCode {d : Byte} (hd : isCommandCode d) :
    ∃ i : Instr, i.WellFormed ∧ encode i = TxWord.build 1#1 Config.addrCMD d := by
  rcases hd with rfl | rfl | rfl
  · exact ⟨.cks, trivial, rfl⟩
  · exact ⟨.enc, trivial, rfl⟩
  · exact ⟨.dec, trivial, rfl⟩

/-- Every write is the word of a well-formed transaction. -/
theorem exists_encode_eq_build (a d : Byte) : ∃ i : Instr, i.WellFormed ∧ encode i = TxWord.build 1#1 a d := by
  by_cases ha : a = Config.addrCMD
  · subst ha
    by_cases hd : isCommandCode d
    · exact exists_encode_eq_of_isCommandCode hd
    · exact ⟨.illcmd d, hd, rfl⟩
  · exact ⟨.hwr a d, ha, rfl⟩

/-- What a word can be: a read, with bits 7:0 to ignore, or the word of a well-formed transaction. -/
theorem TxWord.read_or_encode (w : TxWord) :
    (∃ a z, w = TxWord.build 0#1 a z) ∨ (w.isWrite = true ∧ ∃ i : Instr, i.WellFormed ∧ encode i = w) := by
  have hw := TxWord.build_fields w
  cases hflag : w.isWrite with
  | false =>
    rw [hflag] at hw
    exact .inl ⟨w.addr, w.data, hw.symm⟩
  | true =>
    obtain ⟨i, hi, hword⟩ := exists_encode_eq_build w.addr w.data
    rw [hflag] at hw
    exact .inr ⟨rfl, i, hi, hword.trans hw⟩

/-- Clearing bits 7:0 clears the data byte and keeps the write flag and the address. -/
theorem TxWord.build_and_high (f : BitVec 1) (a d : Byte) :
    TxWord.build f a d &&& 0x1FF00#17 = TxWord.build f a 0x00#8 := by
  ext i h
  simp only [BitVec.getElem_and, TxWord.build, BitVec.getElem_or]
  interval_cases i <;> simp

/-- The decoder gives well-formed transactions only. -/
theorem wellFormed_decode (w : TxWord) : (decode w).WellFormed := by
  obtain ⟨a, z, rfl⟩ | ⟨-, i, hi, rfl⟩ := w.read_or_encode
  · rw [decode_build_read]
    trivial
  · rwa [decodeOfEncode i hi]

/-- Settles O11: a write is the word of a well-formed transaction, which decodes back; a read loses its data byte. -/
theorem encodeOfDecode : Obligations.EncodeOfDecode := by
  refine fun w => ⟨wellFormed_decode w, ?_⟩
  obtain ⟨a, z, rfl⟩ | ⟨hwrite, i, hi, rfl⟩ := w.read_or_encode
  · rw [decode_build_read, TxWord.build_and_high]
    have hread : (TxWord.build 0#1 a z).getLsbD 16 = false := TxWord.isWrite_build 0#1 a z
    rw [hread]
    exact ⟨nofun, fun _ => rfl⟩
  · rw [decodeOfEncode i hi]
    have hflag : (encode i).getLsbD 16 = true := hwrite
    rw [hflag]
    exact ⟨fun _ => rfl, nofun⟩

/-! ## The first matching row (spec/30 R56) -/

/-- Words built from fields are equal when the fields are. -/
theorem TxWord.build_inj {f f' : BitVec 1} {a a' d d' : Byte} :
    TxWord.build f a d = TxWord.build f' a' d' ↔ f = f' ∧ a = a' ∧ d = d' := by
  refine ⟨fun h => ⟨?flag, ?addr, ?data⟩, fun ⟨hf, ha, hd⟩ => by rw [hf, ha, hd]⟩
  case flag =>
    have hbit : f.getLsbD 0 = f'.getLsbD 0 := by rw [← isWrite_build f a d, h, isWrite_build]
    exact BitVec.eq_of_getLsbD_eq fun i hi => by rwa [Nat.lt_one_iff.mp hi]
  case addr => rw [← addr_build f a d, h, addr_build]
  case data => rw [← data_build f a d, h, data_build]

/-- Keeping bit 16 alone keeps the write flag. -/
theorem TxWord.build_and_flag (f : BitVec 1) (a d : Byte) :
    TxWord.build f a d &&& 0x10000#17 = TxWord.build f 0x00#8 0x00#8 := by
  ext i h
  simp only [BitVec.getElem_and, TxWord.build, BitVec.getElem_or]
  interval_cases i <;> simp

section Rows

variable (m : String) (f f' : BitVec 1) (a a' d d' : Byte)

/-- A row that masks nothing asks for the flag, the address and the data byte. -/
theorem admits_word_eq : (OpcodeRow.mk m (TxWord.build f' a' d') 0x1FFFF#17).admits (TxWord.build f a d)
    = decide (f = f' ∧ a = a' ∧ d = d') := by
  have hmask : TxWord.build f a d &&& 0x1FFFF#17 = TxWord.build f a d := BitVec.and_allOnes
  rw [OpcodeRow.admits, hmask, Bool.eq_iff_iff, beq_iff_eq, TxWord.build_inj, decide_eq_true_iff]

/-- A row that masks the data byte asks for the flag and the address. -/
theorem admits_high_eq : (OpcodeRow.mk m (TxWord.build f' a' 0x00#8) 0x1FF00#17).admits (TxWord.build f a d)
    = decide (f = f' ∧ a = a') := by
  rw [OpcodeRow.admits, TxWord.build_and_high, Bool.eq_iff_iff, beq_iff_eq, TxWord.build_inj, decide_eq_true_iff,
    and_iff_left rfl]

/-- A row that masks all but bit 16 asks for the flag. -/
theorem admits_flag_eq : (OpcodeRow.mk m (TxWord.build f' 0x00#8 0x00#8) 0x10000#17).admits (TxWord.build f a d)
    = decide (f = f') := by
  rw [OpcodeRow.admits, TxWord.build_and_flag, Bool.eq_iff_iff, beq_iff_eq, TxWord.build_inj, decide_eq_true_iff,
    and_iff_left ⟨rfl, rfl⟩]

end Rows

/-- The table with its patterns built from fields. -/
theorem opcodeTable_eq : opcodeTable =
    [ ⟨"CKS", TxWord.build 1#1 Config.addrCMD Config.codeCKS, 0x1FFFF#17⟩,
      ⟨"ENC", TxWord.build 1#1 Config.addrCMD Config.codeENC, 0x1FFFF#17⟩,
      ⟨"DEC", TxWord.build 1#1 Config.addrCMD Config.codeDEC, 0x1FFFF#17⟩,
      ⟨"ILLCMD", TxWord.build 1#1 Config.addrCMD 0x00#8, 0x1FF00#17⟩,
      ⟨"HWR", TxWord.build 1#1 0x00#8 0x00#8, 0x10000#17⟩,
      ⟨"HRD", TxWord.build 0#1 0x00#8 0x00#8, 0x10000#17⟩ ] := by decide

/-- The first row of a read: every row before HRD asks for the write flag. -/
theorem firstRow_build_read (a z : Byte) :
    firstRow (TxWord.build 0#1 a z) = some ⟨"HRD", TxWord.build 0#1 0x00#8 0x00#8, 0x10000#17⟩ := by
  simp [firstRow, opcodeTable_eq, admits_word_eq, admits_high_eq, admits_flag_eq]

/-- The first row of a plain write: every row before HWR asks for the address CMD. -/
theorem firstRow_build_write {a : Byte} (ha : a ≠ Config.addrCMD) (d : Byte) :
    firstRow (TxWord.build 1#1 a d) = some ⟨"HWR", TxWord.build 1#1 0x00#8 0x00#8, 0x10000#17⟩ := by
  simp [firstRow, opcodeTable_eq, admits_word_eq, admits_high_eq, admits_flag_eq, ha]

/-- The first row of an illegal command: the three rows before ILLCMD ask for the three codes. -/
theorem firstRow_build_illcmd {d : Byte} (hd : ¬ isCommandCode d) :
    firstRow (TxWord.build 1#1 Config.addrCMD d)
      = some ⟨"ILLCMD", TxWord.build 1#1 Config.addrCMD 0x00#8, 0x1FF00#17⟩ := by
  obtain ⟨hcks, henc, hdec⟩ : d ≠ Config.codeCKS ∧ d ≠ Config.codeENC ∧ d ≠ Config.codeDEC := by
    simpa only [isCommandCode, not_or] using hd
  simp [firstRow, opcodeTable_eq, admits_word_eq, admits_high_eq, hcks, henc, hdec]

/-- The first row that matches a transaction's word is the row of its mnemonic. -/
theorem firstRow_encode {i : Instr} (hi : i.WellFormed) :
    ∃ r, firstRow (encode i) = some r ∧ r.mnemonic = i.mnemonic := by
  cases i with
  | cks => exact ⟨⟨"CKS", 0x14C01#17, 0x1FFFF#17⟩, by decide, rfl⟩
  | enc => exact ⟨⟨"ENC", 0x14C02#17, 0x1FFFF#17⟩, by decide, rfl⟩
  | dec => exact ⟨⟨"DEC", 0x14C03#17, 0x1FFFF#17⟩, by decide, rfl⟩
  | illcmd d => exact ⟨_, firstRow_build_illcmd hi, rfl⟩
  | hwr a d => exact ⟨_, firstRow_build_write hi d, rfl⟩
  | hrd a => exact ⟨_, firstRow_build_read a 0x00#8, rfl⟩

/-- Settles O12: a read takes the last row, a write the row of the transaction whose word it is. -/
theorem decodeTakesFirstMatchingRow : Obligations.DecodeTakesFirstMatchingRow := by
  intro w
  obtain ⟨a, z, rfl⟩ | ⟨-, i, hi, rfl⟩ := w.read_or_encode
  · exact ⟨_, firstRow_build_read a z, by rw [decode_build_read]; rfl⟩
  · rw [decodeOfEncode i hi]
    exact firstRow_encode hi

/-- Settles O15: nine words, each decoded by computation. -/
theorem sampleWordsDecode : Obligations.SampleWordsDecode := by
  unfold Obligations.SampleWordsDecode
  decide

end Sys2Proof

/-! PROOFS. Steps: the transaction a step runs (spec/43 R108), the idle block (spec/60 R127), and what every step keeps
(spec/10 R20, R23). -/

namespace Sys2Proof.Machine

/-! ## The transaction a step runs (spec/43 R108) -/

/-- Settles O6: a well-formed transaction's word decodes to it. -/
theorem stepRunsDecodedTransaction : Obligations.StepRunsDecodedTransaction :=
  fun _ _ => ⟨fun _ hscript => step_word hscript, fun i hi hscript => by
    rw [step_word hscript, decodeOfEncode i hi, State.accept_eq]⟩

/-- Settles O8: an empty list of host events is the step's first case. -/
theorem idleBlockHoldsState : Obligations.IdleBlockHoldsState :=
  fun _ => step_nil

/-- Every instruction's meaning answers a next state. -/
theorem exists_exec_eq_next (i : Instr) (s : State) : ∃ t, exec i s = .next t := by
  cases i with
  | cks => exact ⟨_, exec_cks s⟩
  | enc => exact ⟨_, exec_enc s⟩
  | dec => exact ⟨_, exec_dec s⟩
  | illcmd d => exact ⟨_, exec_illcmd d s⟩
  | hwr a d => exact ⟨_, rfl⟩
  | hrd a => exact ⟨_, exec_hrd a s⟩

/-- Settles O7: an idle step, a reset and a transaction each answer a next state. -/
theorem stepAlwaysAnswersNext : Obligations.StepAlwaysAnswersNext := by
  intro s
  match hscript : s.script with
  | [] => exact ⟨_, step_nil hscript⟩
  | .reset :: rest => exact ⟨_, step_reset hscript⟩
  | .word w :: rest =>
    rw [step_word hscript]
    exact exists_exec_eq_next _ _

/-! ## The placed word (log entries 1 and 6) -/

/-- The word built from the three bytes of a number below 2 ^ 17 is the number's word. -/
theorem build_bytesOfNat {n : Nat} (h : n < 2 ^ 17) :
    TxWord.build ((BitVec.ofNat 8 (n / 65536)).setWidth 1) (BitVec.ofNat 8 (n / 256)) (BitVec.ofNat 8 n)
      = BitVec.ofNat 17 n := by
  apply BitVec.eq_of_toNat_eq
  simp only [TxWord.toNat_build, BitVec.toNat_setWidth, BitVec.toNat_ofNat]
  omega

/-- Three bytes decode when the number they carry is a 17-bit word. -/
theorem decodeBytes_bytesOfNat {n : Nat} (h : n < 2 ^ 24) :
    decodeBytes (bytesOfNat n)
      = if n < 2 ^ 17 then .ok (decode (BitVec.ofNat 17 n), []) else .error .widerThanWord := by
  have hflag : (BitVec.ofNat 8 (n / 65536)).toNat < 2 ↔ n < 2 ^ 17 := by
    rw [BitVec.toNat_ofNat]
    omega
  simp only [bytesOfNat, decodeBytes, hflag]
  split
  · next hn => rw [build_bytesOfNat hn]
  · rfl

/-- The table decoder reads exactly the numbers of 17-bit words, each as its word. -/
theorem decodeTableWord_eq_some {nbits w : Nat} {i : Instr} (h : decodeTableWord nbits w = some i) :
    w % 2 ^ nbits < 2 ^ 17 ∧ decode (BitVec.ofNat 17 (w % 2 ^ nbits)) = i := by
  unfold decodeTableWord at h
  split at h
  · next h24 =>
    rw [decodeBytes_bytesOfNat h24] at h
    split_ifs at h with h17
    exact ⟨h17, Option.some.inj h⟩
  · cases h

/-- Settles O9: the placed word is the one the table decoder read, and it stands first in the host's list. -/
theorem placedWordRunsNext : Obligations.PlacedWordRunsNext := by
  intro s nbits w i hdecode
  obtain ⟨hlt, hi⟩ := decodeTableWord_eq_some hdecode
  rw [State.withFetchWord, if_pos hlt, step_word rfl, hi, State.accept_eq]

/-! ## What an instruction can do -/

/-- The five kinds of outcome of a well-formed transaction: a command completes (CKS, ENC, DEC), a command raises, a
plain write of a location, a read. -/
theorem exec_cases {i : Instr} {s t : State} (hi : i.WellFormed) (h : exec i s = .next t) :
    (i = .cks ∧ t = doCks s) ∨ (i = .enc ∧ t = doEnc s) ∨ (i = .dec ∧ t = (s.load (frameOf s.fb)).complete)
      ∨ ((i = .dec ∨ ∃ d, i = .illcmd d) ∧ ∃ c, t = s.raise c)
      ∨ (∃ a d, i = .hwr a d ∧ t = s.writeLoc d (locate a))
      ∨ ∃ a, i = .hrd a ∧ t = s.answer (s.read a) := by
  cases i with
  | cks => cases h; exact .inl ⟨rfl, rfl⟩
  | enc => cases h; exact .inr (.inl ⟨rfl, rfl⟩)
  | dec =>
    cases h
    obtain ⟨c, -, hraise⟩ | ⟨-, hload⟩ := doDec_cases s
    · exact .inr (.inr (.inr (.inl ⟨.inl rfl, c, hraise⟩)))
    · exact .inr (.inr (.inl ⟨rfl, hload⟩))
  | illcmd d => cases h; exact .inr (.inr (.inr (.inl ⟨.inr ⟨d, rfl⟩, .illegalCmd, rfl⟩)))
  | hwr a d =>
    rw [exec_hwr_plain hi] at h
    cases h
    exact .inr (.inr (.inr (.inr (.inl ⟨a, d, rfl, rfl⟩))))
  | hrd a => cases h; exact .inr (.inr (.inr (.inr (.inr ⟨a, rfl, rfl⟩))))

/-! ## The values of STATUS (spec/10 R20) -/

/-- The byte of every cause is one of the six values. -/
theorem Cause.statusByte_mem (c : Cause) :
    c.statusByte ∈ [0x00#8, 0x03#8, 0x05#8, 0x07#8, 0x09#8, 0x0F#8] := by
  cases c <;> decide

theorem State.statusLegal_of_status_zero {s : State} (h : s.status = 0x00#8) : s.StatusLegal := by
  rw [State.StatusLegal, h]
  exact List.mem_cons_self

/-- A transaction leaves STATUS alone or writes one of the six values. -/
theorem exec_status {i : Instr} {s t : State} (hi : i.WellFormed) (h : exec i s = .next t) :
    t.status = s.status ∨ t.StatusLegal := by
  obtain ⟨-, rfl⟩ | ⟨-, rfl⟩ | ⟨-, rfl⟩ | ⟨-, c, rfl⟩ | ⟨a, d, -, rfl⟩ | ⟨a, -, rfl⟩ := exec_cases hi h
  · exact .inr (State.statusLegal_of_status_zero rfl)
  · exact .inr (State.statusLegal_of_status_zero rfl)
  · exact .inr (State.statusLegal_of_status_zero rfl)
  · exact .inr c.statusByte_mem
  · obtain ⟨-, hstatus, -⟩ := s.writeLoc_readOnly d (locate a)
    exact .inl hstatus
  · exact .inl rfl

/-- So does a step. -/
theorem step_status {s t : State} (h : step s = .next t) : t.status = s.status ∨ t.StatusLegal := by
  obtain ⟨-, rfl⟩ | ⟨rest, -, rfl⟩ | ⟨w, rest, -, hexec⟩ := step_cases h
  · exact .inl rfl
  · exact .inr (State.statusLegal_of_status_zero rfl)
  · exact exec_status (s := s.accept rest) (wellFormed_decode w) hexec

/-- Settles O4: a step leaves a legal STATUS alone or writes a legal one. -/
theorem stepKeepsStatusLegal : Obligations.StepKeepsStatusLegal := by
  intro s t hs h
  rcases step_status h with hsame | hlegal
  · rwa [State.StatusLegal, hsame]
  · exact hlegal

/-! ## The state invariants (spec/10 R23) -/

/-- The bounds of the five lengths. -/
structure State.LengthsLe (s : State) : Prop where
  shl_le : s.shl.toNat ≤ 16
  spl_le : s.spl.toNat ≤ 6
  dhl_le : s.dhl.toNat ≤ 16
  dpl_le : s.dpl.toNat ≤ 6
  pll_le : s.pll.toNat ≤ 16

/-- What the invariants ask of STATUS alone. -/
def StatusShape (v : Byte) : Prop :=
  v.extractLsb' 4 4 = 0#4 ∧ (v.extractLsb' 0 1 = 0#1 → v.extractLsb' 1 3 = 0#3)

theorem State.inv_iff (s : State) : s.Inv ↔ s.LengthsLe ∧ StatusShape s.status :=
  ⟨fun h => ⟨⟨h.shl_le, h.spl_le, h.dhl_le, h.dpl_le, h.pll_le⟩, h.status_high, h.cause_zero⟩,
    fun ⟨⟨hshl, hspl, hdhl, hdpl, hpll⟩, hhigh, hcause⟩ => ⟨hshl, hspl, hdhl, hdpl, hpll, hhigh, hcause⟩⟩

/-- The six values of STATUS meet the invariants' condition on it. -/
theorem State.StatusLegal.statusShape {s : State} (h : s.StatusLegal) : StatusShape s.status := by
  have hall : ∀ v ∈ [0x00#8, 0x03#8, 0x05#8, 0x07#8, 0x09#8, 0x0F#8], StatusShape v := by
    unfold StatusShape
    decide
  exact hall s.status h

theorem lengthByte_le {n m : Nat} (h : n ≤ m) : (lengthByte n).toNat ≤ m :=
  (Nat.mod_le _ _).trans h

theorem clamp_le (v : Byte) (m : Nat) : (clamp v m).toNat ≤ m := by
  rw [toNat_clamp]
  exact min_le_right _ _

/-- A plain write keeps the bounds: a length register clamps. -/
theorem State.LengthsLe.writeLoc {s : State} (h : s.LengthsLe) (d : Byte) (l : Loc) : (s.writeLoc d l).LengthsLe := by
  obtain ⟨hshl, hspl, hdhl, hdpl, hpll⟩ := h
  cases l with
  | shl => exact ⟨clamp_le d 16, hspl, hdhl, hdpl, hpll⟩
  | spl => exact ⟨hshl, clamp_le d 6, hdhl, hdpl, hpll⟩
  | dhl => exact ⟨hshl, hspl, clamp_le d 16, hdpl, hpll⟩
  | dpl => exact ⟨hshl, hspl, hdhl, clamp_le d 6, hpll⟩
  | pll => exact ⟨hshl, hspl, hdhl, hdpl, clamp_le d 16⟩
  | _ => exact ⟨hshl, hspl, hdhl, hdpl, hpll⟩

/-- A loaded frame's lengths are those of texts within their fields. -/
theorem State.lengthsLe_load_frameOf (s : State) (f : Vector Byte 54) : (s.load (frameOf f)).LengthsLe := by
  constructor <;> simp only [State.load, frameOf]
  case shl_le => exact lengthByte_le (stripR_le _ _)
  case spl_le => exact lengthByte_le (stripR_le _ _)
  case dhl_le => exact lengthByte_le (stripR_le _ _)
  case dpl_le => exact lengthByte_le (stripR_le _ _)
  case pll_le => exact lengthByte_le ((stripR_le _ _).trans (by decide))

theorem State.LengthsLe.of_eq {s t : State} (hs : s.LengthsLe) (hshl : t.shl = s.shl) (hspl : t.spl = s.spl)
    (hdhl : t.dhl = s.dhl) (hdpl : t.dpl = s.dpl) (hpll : t.pll = s.pll) : t.LengthsLe :=
  ⟨hshl ▸ hs.shl_le, hspl ▸ hs.spl_le, hdhl ▸ hs.dhl_le, hdpl ▸ hs.dpl_le, hpll ▸ hs.pll_le⟩

/-- Every transaction keeps the bounds of the lengths: only a loaded frame and a plain write touch them. -/
theorem State.LengthsLe.of_exec {i : Instr} {s t : State} (hs : s.LengthsLe) (hi : i.WellFormed)
    (h : exec i s = .next t) : t.LengthsLe := by
  obtain ⟨-, rfl⟩ | ⟨-, rfl⟩ | ⟨-, rfl⟩ | ⟨-, c, rfl⟩ | ⟨a, d, -, rfl⟩ | ⟨a, -, rfl⟩ := exec_cases hi h
  · exact hs.of_eq rfl rfl rfl rfl rfl
  · exact hs.of_eq rfl rfl rfl rfl rfl
  · exact (s.lengthsLe_load_frameOf s.fb).of_eq rfl rfl rfl rfl rfl
  · exact hs.of_eq rfl rfl rfl rfl rfl
  · exact hs.writeLoc d (locate a)
  · exact hs.of_eq rfl rfl rfl rfl rfl

theorem State.lengthsLe_resetBlock (rest : List HostEvent) : (resetBlock rest).LengthsLe :=
  ⟨Nat.zero_le _, Nat.zero_le _, Nat.zero_le _, Nat.zero_le _, Nat.zero_le _⟩

/-- Every step keeps the bounds of the lengths. -/
theorem State.LengthsLe.of_step {s t : State} (hs : s.LengthsLe) (h : step s = .next t) : t.LengthsLe := by
  obtain ⟨-, rfl⟩ | ⟨rest, -, rfl⟩ | ⟨w, rest, -, hexec⟩ := step_cases h
  · exact hs
  · exact State.lengthsLe_resetBlock rest
  · exact State.LengthsLe.of_exec (s := s.accept rest) (hs.of_eq rfl rfl rfl rfl rfl) (wellFormed_decode w) hexec

/-- Settles O3: the lengths keep their bounds, and STATUS is left alone or legal. -/
theorem stepKeepsStateInvariants : Obligations.StepKeepsStateInvariants := by
  intro s t hs h
  rw [State.inv_iff] at hs ⊢
  obtain ⟨hlen, hshape⟩ := hs
  refine ⟨hlen.of_step h, ?_⟩
  rcases step_status h with hsame | hlegal
  · rwa [hsame]
  · exact hlegal.statusShape

/-- Settles O2: the lengths and STATUS are zero after reset. -/
theorem resetMeetsStateInvariants : Obligations.ResetMeetsStateInvariants := by
  have hlegal : State.reset.StatusLegal := State.statusLegal_of_status_zero rfl
  exact ⟨State.reset.inv_iff.mpr ⟨State.lengthsLe_resetBlock [], hlegal.statusShape⟩, hlegal⟩

end Sys2Proof.Machine

/-! PROOFS. What a transaction changes and what it leaves: who writes which register (spec/10 R28), plain writes and
repeats (spec/20 R36), and precise errors (spec/60 R119). -/

namespace Sys2Proof.Machine

/-! ## Precise errors (spec/60 R119) -/

/-- A command that completes leaves ERR = 0. -/
theorem State.err_ne_one_of_status_zero {s : State} (h : s.status = 0x00#8) : s.err ≠ 1#1 := by
  rw [State.err, h]
  decide

/-- Settles O25: of the outcomes of a transaction only a raise writes a STATUS with ERR = 1. -/
theorem errorsArePrecise : Obligations.ErrorsArePrecise := by
  intro i s t hi h herr hstatus
  obtain ⟨-, rfl⟩ | ⟨-, rfl⟩ | ⟨-, rfl⟩ | ⟨-, c, rfl⟩ | ⟨a, d, -, rfl⟩ | ⟨a, -, rfl⟩ := exec_cases hi h
  · exact absurd herr (State.err_ne_one_of_status_zero rfl)
  · exact absurd herr (State.err_ne_one_of_status_zero rfl)
  · exact absurd herr (State.err_ne_one_of_status_zero rfl)
  · exact s.raise_eq c
  · obtain ⟨-, hsame, -⟩ := s.writeLoc_readOnly d (locate a)
    exact absurd hsame hstatus
  · exact absurd rfl hstatus

/-! ## The register a plain write changes (spec/10 R28, spec/20 R31) -/

/-- A plain write changes a register only when the location is one of the register's own. -/
theorem State.writeLoc_changes (s : State) (d : Byte) (l : Loc) :
    ((s.writeLoc d l).fb ≠ s.fb → ∃ i, l = .fb i) ∧ ((s.writeLoc d l).fbl ≠ s.fbl → l = .fbl)
      ∧ ((s.writeLoc d l).sh ≠ s.sh → ∃ i, l = .sh i) ∧ ((s.writeLoc d l).sp ≠ s.sp → ∃ i, l = .sp i)
      ∧ ((s.writeLoc d l).dh ≠ s.dh → ∃ i, l = .dh i) ∧ ((s.writeLoc d l).dp ≠ s.dp → ∃ i, l = .dp i)
      ∧ ((s.writeLoc d l).pl ≠ s.pl → ∃ i, l = .pl i) ∧ ((s.writeLoc d l).shl ≠ s.shl → l = .shl)
      ∧ ((s.writeLoc d l).spl ≠ s.spl → l = .spl) ∧ ((s.writeLoc d l).dhl ≠ s.dhl → l = .dhl)
      ∧ ((s.writeLoc d l).dpl ≠ s.dpl → l = .dpl) ∧ ((s.writeLoc d l).pll ≠ s.pll → l = .pll)
      ∧ ((s.writeLoc d l).seq ≠ s.seq → l = .seq) := by
  cases l <;> simp [State.writeLoc]

/-- The address of a location, from the register map read backwards. -/
theorem toNat_of_locate {a : Byte} {l : Loc} (h : locate a = l) (hl : l ≠ .reserved) : a.toNat = l.address := by
  rw [← h] at hl ⊢
  exact (address_locate a hl).symm

/-- A single register's address. -/
theorem eq_of_locate {a b : Byte} {l : Loc} (h : locate a = l) (hb : locate b = l) (hl : l ≠ .reserved) : a = b :=
  locate_inj (h.trans hb.symm) (h ▸ hl)

/-- An array's addresses run from its base to its last byte. -/
theorem le_of_locate {a lo hi : Byte} {l : Loc} {n : Nat} (i : Fin n) (h : locate a = l) (hl : l ≠ .reserved)
    (hlo : l.address = lo.toNat + i) (hhi : lo.toNat + n = hi.toNat + 1) : lo ≤ a ∧ a ≤ hi := by
  rw [BitVec.le_def, BitVec.le_def, toNat_of_locate h hl, hlo]
  omega

/-- Settles O26: commands and reads by their outcomes, a plain write by the locations of each register. -/
theorem registersWrittenOnlyByTheirWriters : Obligations.RegistersWrittenOnlyByTheirWriters := by
  intro i s t hi h
  obtain ⟨rfl, rfl⟩ | ⟨rfl, rfl⟩ | ⟨rfl, rfl⟩ | ⟨hraise, c, rfl⟩ | ⟨a, d, rfl, rfl⟩ | ⟨a, rfl, rfl⟩ := exec_cases hi h
  · simp
  · simp
  · simp
  · rcases hraise with rfl | ⟨d, rfl⟩ <;> simp
  · obtain ⟨hck, hstatus, hscript, hreply⟩ := s.writeLoc_readOnly d (locate a)
    obtain ⟨hfb, hfbl, hsh, hsp, hdh, hdp, hpl, hshl, hspl, hdhl, hdpl, hpll, hseq⟩ := s.writeLoc_changes d (locate a)
    have single {l : Loc} {b : Byte} (hloc : locate a = l) (hb : locate b = l) (hl : l ≠ .reserved) (j : Instr) :
        .hwr a d = j ∨ ∃ d', Instr.hwr a d = .hwr b d' := by
      rw [eq_of_locate hloc hb hl]
      exact .inr ⟨d, rfl⟩
    have array {lo hi : Byte} (hrange : lo ≤ a ∧ a ≤ hi) (j : Instr) :
        .hwr a d = j ∨ ∃ a' d', Instr.hwr a d = .hwr a' d' ∧ lo ≤ a' ∧ a' ≤ hi :=
      .inr ⟨a, d, rfl, hrange⟩
    refine ⟨hscript, fun hne => absurd hreply hne, fun hne => absurd hstatus hne, fun hne => absurd hck hne,
      fun hne => ?fb, fun hne => single (hfbl hne) rfl nofun _, fun hne => ?sh, fun hne => ?sp, fun hne => ?dh,
      fun hne => ?dp, fun hne => ?pl, fun hne => single (hshl hne) rfl nofun _,
      fun hne => single (hspl hne) rfl nofun _, fun hne => single (hdhl hne) rfl nofun _,
      fun hne => single (hdpl hne) rfl nofun _, fun hne => single (hpll hne) rfl nofun _,
      fun hne => single (hseq hne) rfl nofun _⟩
    case fb => exact (hfb hne).elim fun i hloc => array (le_of_locate i hloc nofun rfl rfl) _
    case sh =>
      obtain ⟨i, hloc⟩ := hsh hne
      exact .inr ⟨a, d, rfl, (le_of_locate (lo := 0x00#8) i hloc nofun rfl rfl).2⟩
    case sp => exact (hsp hne).elim fun i hloc => array (le_of_locate i hloc nofun rfl rfl) _
    case dh => exact (hdh hne).elim fun i hloc => array (le_of_locate i hloc nofun rfl rfl) _
    case dp => exact (hdp hne).elim fun i hloc => array (le_of_locate i hloc nofun rfl rfl) _
    case pl => exact (hpl hne).elim fun i hloc => array (le_of_locate i hloc nofun rfl rfl) _
  · simp

/-! ## A repeated transaction (spec/20 R36) -/

/-- A plain write repeated changes nothing more: what it stores does not depend on the state. -/
theorem State.writeLoc_writeLoc (s : State) (d : Byte) (l : Loc) : (s.writeLoc d l).writeLoc d l = s.writeLoc d l := by
  cases l <;> simp [State.writeLoc]

theorem doCks_doCks (s : State) : doCks (doCks s) = doCks s := rfl

theorem doEnc_doEnc (s : State) : doEnc (doEnc s) = doEnc s := rfl

theorem State.raise_raise (s : State) (c : Cause) : (s.raise c).raise c = s.raise c := rfl

/-- DEC leaves FB and FBL, so the second DEC takes the same checks and loads the same frame. -/
theorem doDec_doDec (s : State) : doDec (doDec s) = doDec s := by
  obtain ⟨c, hchecks, hdec⟩ | ⟨hchecks, hdec⟩ := doDec_cases s
  · rw [hdec, doDec, State.raise_fb, State.raise_fbl, hchecks]
    rfl
  · rw [hdec, doDec, State.complete_fb, State.complete_fbl, State.load_fb, State.load_fbl, hchecks]
    rfl

theorem issueCommand_issueCommand (d : Byte) (s : State) :
    issueCommand d (issueCommand d s) = issueCommand d s := by
  obtain ⟨rfl, -⟩ | ⟨rfl, -⟩ | ⟨rfl, -⟩ | ⟨hd, -⟩ := issueCommand_cases d s
  · exact doCks_doCks s
  · exact doEnc_doEnc s
  · exact doDec_doDec s
  · simp only [issueCommand_of_not_isCommandCode hd, State.raise_raise]

/-- A read does not depend on what an earlier read returned (log entry 2). -/
theorem State.read_answer (s : State) (a v : Byte) : (s.answer v).read a = s.read a := by
  unfold State.read
  cases locate a <;> rfl

/-- Settles O27: each meaning answers a state on which it answers the same state again. -/
theorem repeatedTransactionChangesNothing : Obligations.RepeatedTransactionChangesNothing := by
  intro i s
  cases i with
  | cks => exact ⟨_, exec_cks s, by rw [exec_cks, doCks_doCks]⟩
  | enc => exact ⟨_, exec_enc s, by rw [exec_enc, doEnc_doEnc]⟩
  | dec => exact ⟨_, exec_dec s, by rw [exec_dec, doDec_doDec]⟩
  | illcmd d => exact ⟨_, exec_illcmd d s, by rw [exec_illcmd, State.raise_raise]⟩
  | hwr a d =>
    by_cases ha : a = Config.addrCMD
    · subst ha
      exact ⟨_, exec_hwr_cmd d s, by rw [exec_hwr_cmd, issueCommand_issueCommand]⟩
    · exact ⟨_, exec_hwr_plain ha d s, by rw [exec_hwr_plain ha, State.writeLoc_writeLoc]⟩
  | hrd a => exact ⟨_, exec_hrd a s, by rw [exec_hrd, State.read_answer]; rfl⟩

/-! ## What a plain write leaves (spec/20 R36) -/

/-- A write leaves what every other address reads, LAST apart. -/
theorem State.read_writeLoc_of_ne (s : State) {a b : Byte} (d : Byte) (h : b ≠ a) (hlast : b ≠ Config.addrLAST) :
    (s.writeLoc d (locate a)).read b = s.read b := by
  have hl : locate b ≠ .last := fun heq => hlast (eq_of_locate heq rfl nofun)
  unfold State.read
  by_cases hloc : locate b = locate a
  · have hres : locate b = .reserved := by
      by_contra hne
      exact h (locate_inj hloc hne)
    rw [hres]
    rfl
  · exact s.readLoc_writeLoc_of_ne d hloc hl

/-- A write of neither PL nor PLL leaves LAST. -/
theorem State.last_writeLoc (s : State) {a : Byte} (d : Byte) (hpl : ¬ (0x30#8 ≤ a ∧ a ≤ 0x3F#8))
    (hpll : a ≠ Config.addrPLL) : (s.writeLoc d (locate a)).last = s.last := by
  obtain ⟨-, -, -, -, -, -, hchpl, -, -, -, -, hchpll, -⟩ := s.writeLoc_changes d (locate a)
  refine State.last_congr ?pl ?pll
  case pl =>
    by_contra hne
    obtain ⟨i, hloc⟩ := hchpl hne
    exact hpl (le_of_locate i hloc nofun rfl rfl)
  case pll =>
    by_contra hne
    exact hpll (eq_of_locate (hchpll hne) rfl nofun)

/-- The read-only and reserved addresses by their locations. -/
theorem ignoredAddr_iff : ∀ a : Byte, IgnoredAddr a ↔
    (∃ i, locate a = .ck i) ∨ locate a = .last ∨ locate a = .status ∨ locate a = .reserved := by
  decide

/-- The host and payload lengths, which clamp at 16, by their locations. -/
theorem addr_clamp16_iff : ∀ a : Byte, (a = 0x40#8 ∨ a = 0x42#8 ∨ a = 0x44#8) ↔
    locate a = .shl ∨ locate a = .dhl ∨ locate a = .pll := by
  decide

/-- The port lengths, which clamp at 6, by their locations. -/
theorem addr_clamp6_iff : ∀ a : Byte, (a = 0x41#8 ∨ a = 0x43#8) ↔ locate a = .spl ∨ locate a = .dpl := by
  decide

theorem addr_seq_iff : ∀ a : Byte, a = 0x45#8 ↔ locate a = .seq := by
  decide

theorem setWidth_extractLsb'_zero_one (d : Byte) : (d.extractLsb' 0 1).setWidth 8 = d &&& 0x01#8 := by
  revert d
  decide

/-- What a location that stores reads after its write. -/
theorem State.readLoc_writeLoc_of_stores (s : State) (d : Byte) {l : Loc} (hcmd : l ≠ .cmd)
    (hstores : ¬ ((∃ i, l = .ck i) ∨ l = .last ∨ l = .status ∨ l = .reserved)) :
    (s.writeLoc d l).readLoc l =
      if l = .shl ∨ l = .dhl ∨ l = .pll then clamp d 16
      else if l = .spl ∨ l = .dpl then clamp d 6
      else if l = .seq then (d.extractLsb' 0 1).setWidth 8
      else d := by
  have hlast : l ≠ .last := fun heq => hstores (.inr (.inl heq))
  rw [s.readLoc_writeLoc_self d l hlast]
  cases l with
  | ck i => exact absurd (.inl ⟨i, rfl⟩) hstores
  | last => exact absurd rfl hlast
  | status => exact absurd (.inr (.inr (.inl rfl))) hstores
  | reserved => exact absurd (.inr (.inr (.inr rfl))) hstores
  | cmd => exact absurd rfl hcmd
  | _ => simp

/-- What an address that stores reads after its write. -/
theorem State.read_writeLoc_of_stores (s : State) {a : Byte} (d : Byte) (ha : a ≠ Config.addrCMD)
    (hstores : ¬ IgnoredAddr a) : (s.writeLoc d (locate a)).read a =
      if a = 0x40#8 ∨ a = 0x42#8 ∨ a = 0x44#8 then clamp d 16
      else if a = 0x41#8 ∨ a = 0x43#8 then clamp d 6
      else if a = 0x45#8 then d &&& 0x01#8
      else d := by
  rw [State.read, s.readLoc_writeLoc_of_stores d (mt (locate_eq_cmd_iff a).mp ha) (mt (ignoredAddr_iff a).mpr hstores)]
  simp only [addr_clamp16_iff, addr_clamp6_iff, addr_seq_iff, setWidth_extractLsb'_zero_one]

/-- Settles O20: the other addresses and LAST by the lemmas above; the written address stores, or the write is ignored
and the state is the same. -/
theorem writeChangesOnlyItsAddress : Obligations.WriteChangesOnlyItsAddress := by
  intro s a d ha
  refine ⟨_, exec_hwr_plain ha d s, fun b hb hlast => s.read_writeLoc_of_ne d hb hlast,
    fun hpl hpll => congrArg (BitVec.setWidth 8) (s.last_writeLoc d hpl hpll), ?_⟩
  have h16 : clamp d 16 = if d ≤ 16#8 then d else 16#8 := clamp_eq_ite d (by decide)
  have h6 : clamp d 6 = if d ≤ 6#8 then d else 6#8 := clamp_eq_ite d (by decide)
  rw [← h16, ← h6]
  split
  · next hign =>
    have hsame := (exec_hwr_plain ha d s).symm.trans (exec_hwr_of_ignored hign d s)
    rw [Host.Outcome.next.inj hsame]
  · next hstores => exact s.read_writeLoc_of_stores d ha hstores

end Sys2Proof.Machine

/-! PROOFS. The checksum code as a function of the sum (spec/40 R74, R75). -/

namespace Sys2Proof.Machine

/-! ## The digits that are kept (spec/40 R73) -/

/-- Dropping last digits of a number leaves the first characters of its text. -/
theorem decstr_div_isPrefix (n k : Nat) (h : 1 ≤ n / 10 ^ k) : decstr (n / 10 ^ k) <+: decstr n := by
  induction k with
  | zero => rw [pow_zero, Nat.div_one]
  | succ k ih =>
    rw [pow_succ, ← Nat.div_div_eq_div_mul] at h ⊢
    have hge : 10 ≤ n / 10 ^ k := by omega
    refine List.IsPrefix.trans ?_ (ih (by omega))
    rw [decstr_of_ge hge]
    exact ⟨_, rfl⟩

theorem two_le_length_decstr {n : Nat} (h : 10 ≤ n) : 2 ≤ (decstr n).length := by
  have hpos := List.length_pos_iff.mpr (decstr_ne_nil (n / 10))
  rw [decstr_of_ge h, List.length_append, List.length_singleton]
  omega

theorem four_le_length_decstr {n : Nat} (h : 1000 ≤ n) : 4 ≤ (decstr n).length := by
  have h2 := two_le_length_decstr (n := n / 10 / 10) (by omega)
  rw [decstr_of_ge (by omega), decstr_of_ge (n := n / 10) (by omega)]
  simp only [List.length_append, List.length_singleton]
  omega

/-- What is kept of a sum of four digits or more: the first two digits, which last digits do not change. -/
theorem keptDigits_decstr {S k : Nat} (h : 1000 ≤ S) (hk : 10 ≤ S / 10 ^ k) :
    keptDigits (decstr S) = (decstr (S / 10 ^ k)).take 2 := by
  obtain ⟨rest, hrest⟩ := decstr_div_isPrefix S k (by omega)
  rw [keptDigits, if_pos (four_le_length_decstr h), ← hrest, List.take_append_of_le_length (two_le_length_decstr hk)]

/-! ## The code of a sum by its number of digits -/

theorem codeOfSum_one {S : Nat} (h : S < 10) : codeOfSum S = #v[digit S, digit 0, digit 0] := by
  rw [codeOfSum, decstr_of_lt h]; rfl

theorem codeOfSum_two {S : Nat} (h : 10 ≤ S) (h' : S < 100) :
    codeOfSum S = #v[digit (S / 10), digit (S % 10), digit 0] := by
  rw [codeOfSum, decstr_two h h']; rfl

theorem codeOfSum_three {S : Nat} (h : 100 ≤ S) (h' : S < 1000) :
    codeOfSum S = #v[digit (S / 100), digit (S / 10 % 10), digit (S % 10)] := by
  rw [codeOfSum, decstr_three h h']; rfl

/-- Four digits or more: the code of the first two digits. -/
theorem codeOfSum_ge {S k : Nat} (h : 1000 ≤ S) (hk : 10 ≤ S / 10 ^ k) (hk' : S / 10 ^ k < 100) :
    codeOfSum S = #v[digit (S / 10 ^ k / 10), digit (S / 10 ^ k % 10), digit 0] := by
  rw [codeOfSum, keptDigits_decstr h hk, decstr_two hk hk']; rfl

/-- Three digits read as the number they write. -/
theorem codeNumber_digits {a b c : Nat} (ha : a < 10) (hb : b < 10) (hc : c < 10) :
    codeNumber #v[digit a, digit b, digit c] = 100 * a + 10 * b + c := by
  simp [codeNumber, toNat_digit ha, toNat_digit hb, toNat_digit hc]

theorem codeNumber_codeOfSum_ge {S k : Nat} (h : 1000 ≤ S) (hk : 10 ≤ S / 10 ^ k) (hk' : S / 10 ^ k < 100) :
    codeNumber (codeOfSum S) = 10 * (S / 10 ^ k) := by
  rw [codeOfSum_ge h hk hk', codeNumber_digits (by omega) (by omega) (by omega)]
  omega

/-- Unless the sum has exactly three digits, at most two are kept. -/
theorem length_keptDigits_le {S : Nat} (h : ¬ (100 ≤ S ∧ S ≤ 999)) : (keptDigits (decstr S)).length ≤ 2 := by
  rcases Nat.lt_or_ge S 1000 with hlt | hge
  · rcases Nat.lt_or_ge S 10 with h1 | h1
    · rw [decstr_of_lt h1]; exact Nat.le_succ 1
    · rw [decstr_two h1 (by omega)]; exact le_refl 2
  · rw [keptDigits, if_pos (four_le_length_decstr hge)]
    exact List.length_take_le _ _

/-- So the third character of the code is the fill '0'. -/
theorem byteAt_codeOfSum_two {S : Nat} (h : ¬ (100 ≤ S ∧ S ≤ 999)) : byteAt (codeOfSum S) 2 = 0x30#8 :=
  byteAt_padR_ge _ (by decide) (length_keptDigits_le h)

/-- A code that ends in '0' reads as a multiple of ten. -/
theorem ten_dvd_codeNumber {code : Vector Byte 3} (h : byteAt code 2 = 0x30#8) : 10 ∣ codeNumber code := by
  rw [byteAt_eq code 2 (by decide)] at h
  have hlast : code[2].toNat - 0x30 = 0 := by rw [h]; rfl
  rw [codeNumber, hlast]
  omega

/-- Settles O31: each range of the sum has its digits, which read as stated. -/
theorem checksumCodeByRange : Obligations.ChecksumCodeByRange := by
  intro p
  rw [cks]
  generalize byteSum p = S
  refine ⟨fun h => ?one, fun h h' => ?two, fun h h' => ?three, fun h h' => ?four, fun k h h' hk => ?more,
    fun h => ten_dvd_codeNumber (byteAt_codeOfSum_two h)⟩
  case one =>
    rw [codeOfSum_one h, codeNumber_digits h (by decide) (by decide)]
    omega
  case two =>
    rw [codeOfSum_two h h', codeNumber_digits (by omega) (by omega) (by decide)]
    omega
  case three =>
    rw [codeOfSum_three h h', codeNumber_digits (by omega) (by omega) (by omega)]
    omega
  case four => exact codeNumber_codeOfSum_ge (k := 2) h (by omega) (by omega)
  case more =>
    have hpow : 1000 ≤ 10 ^ k := Nat.pow_le_pow_right (n := 10) (by decide) hk
    have hpos : 0 < 10 ^ k := by omega
    exact codeNumber_codeOfSum_ge (by omega) ((Nat.le_div_iff_mul_le hpos).mpr (by omega))
      ((Nat.div_lt_iff_lt_mul hpos).mpr (by rw [pow_succ] at h'; omega))

/-! ## Payloads that share a code (spec/40 R75) -/

theorem cks_eq_of_byteSum_eq {p q : List Byte} (h : byteSum p = byteSum q) : cks p = cks q :=
  congrArg codeOfSum h

/-- Settles O32: each change of the payload keeps its sum. -/
theorem checksumDependsOnSumOnly : Obligations.ChecksumDependsOnSumOnly :=
  ⟨fun _ _ => cks_eq_of_byteSum_eq, fun _ _ h => cks_eq_of_byteSum_eq (byteSum_eq_of_perm h),
    fun _ _ => cks_eq_of_byteSum_eq (by simp), fun _ _ => cks_eq_of_byteSum_eq (by simp)⟩

/-- Settles O33: the sums of the first clause have two, three and four digits, and from four digits on the hundreds give
the kept digits. -/
theorem checksumCollisions : Obligations.ChecksumCollisions := by
  refine ⟨fun p a b ha ha' hb hsum => ?ten, fun p a ha hsum => ?one, fun p q hp hq hsum => ?hundreds⟩
  case ten =>
    rw [cks]
    rcases hsum with hsum | hsum | hsum
    · rw [codeOfSum_two (by omega) (by omega), show byteSum p / 10 = a by omega, show byteSum p % 10 = b by omega]
      rfl
    · rw [codeOfSum_three (by omega) (by omega), show byteSum p / 100 = a by omega,
        show byteSum p / 10 % 10 = b by omega, show byteSum p % 10 = 0 by omega]
      rfl
    · rw [codeOfSum_ge (k := 2) (by omega) (by omega) (by omega), show byteSum p / 10 ^ 2 / 10 = a by omega,
        show byteSum p / 10 ^ 2 % 10 = b by omega]
      rfl
  case one =>
    rw [cks, hsum, codeOfSum_one (by omega)]
    rfl
  case hundreds =>
    have hkept : ∀ {S : Nat}, 1000 ≤ S → keptDigits (decstr S) = (decstr (S / 100)).take 2 := fun h =>
      keptDigits_decstr (k := 2) h (by omega)
    rw [cks, cks, codeOfSum, codeOfSum, hkept hp, hkept hq, hsum]

end Sys2Proof.Machine

/-! PROOFS. ENC and DEC, one after the other (spec/30 R52, spec/41 R85 to R88, spec/42 R90, R100, spec/70 R138 to
R140). -/

namespace Sys2Proof.Machine

/-! ## The frame that ENC builds (spec/30 R52, spec/41 R85) -/

/-- Settles O38: the frame and the payload are functions of the eleven registers, and FBL and STATUS are constants. -/
theorem encDependsOnElevenRegisters : Obligations.EncDependsOnElevenRegisters := by
  intro s s' hsh hshl hsp hspl hdh hdhl hdp hdpl hseq hpl hpll
  have hpayload : s.payload = s'.payload := by rw [State.payload, State.payload, hpl, hpll]
  have hframe : s.frame = s'.frame := by
    simp only [State.frame, State.srcHost, State.srcPort, State.dstHost, State.dstPort, hpayload, hsh, hshl, hsp, hspl,
      hdh, hdhl, hdp, hdpl, hseq]
  exact ⟨_, _, exec_enc s, exec_enc s', hframe, rfl, congrArg cks hpayload, rfl⟩

/-- The character of a sequence bit is a good sequence byte. -/
theorem goodSeqByte_of_eq_ite {f : Vector Byte 54} {q : BitVec 1}
    (h : byteAt f 44 = if q = 1#1 then 0x31#8 else 0x30#8) : GoodSeqByte f := by
  rw [GoodSeqByte, h]
  split
  · exact .inr rfl
  · exact .inl rfl

/-- Settles O39: the fields of the frame that O37 lists, with what the code's characters are. -/
theorem encodedFramesAreCanonical : Obligations.EncodedFramesAreCanonical := by
  intro s hs
  obtain ⟨-, -, hbuild⟩ := encBuildsFrame
  obtain ⟨t, ht, -, -, -, -, -, hseq, hck, hpl⟩ := hbuild s hs
  refine ⟨t, ht, goodSeqByte_of_eq_ite hseq, fun i hi => ?digits, fun hsum => ?third, fun i hi hL => ?fill⟩
  case digits =>
    rw [hck i hi, ← isdigit_iff]
    exact isdigit_byteAt_cks _ hi
  case third => rw [hck 2 (by decide), cks, byteAt_codeOfSum_two hsum]
  case fill => rw [hpl i hi, if_neg (by omega)]

/-! ## Fields of a frame as arrays -/

/-- Arrays with the same bytes are equal. -/
theorem ext_byteAt {W : Nat} {v w : Vector Byte W} (h : ∀ i < W, byteAt v i = byteAt w i) : v = w := by
  ext i hi
  rw [← byteAt_eq v i hi, ← byteAt_eq w i hi, h i hi]

/-- A field of a frame is a padded text when its bytes are. -/
theorem slice_eq_padR {f : Vector Byte 54} {off W : Nat} {h : off + W ≤ 54} {l : List Byte} {P : Byte}
    (hf : ∀ i < W, byteAt f (off + i) = l.getD i P) : slice f off W h = padR l W P :=
  ext_byteAt fun i hi => by rw [byteAt_slice f off W h hi, hf i hi, byteAt_padR_eq_getD l P hi]

section Slices

variable (sh sp dh dp p : List Byte) (q : BitVec 1)

theorem slice_encodeFrame_srcHost : slice (encodeFrame sh sp dh dp q p) 0 16 = padR sh 16 0x20#8 :=
  slice_eq_padR fun i hi => by rw [Nat.zero_add, byteAt_encodeFrame_srcHost _ _ _ _ _ _ hi]

theorem slice_encodeFrame_srcPort : slice (encodeFrame sh sp dh dp q p) 16 6 = padR sp 6 0x20#8 :=
  slice_eq_padR fun _ hi => byteAt_encodeFrame_srcPort _ _ _ _ _ _ hi

theorem slice_encodeFrame_dstHost : slice (encodeFrame sh sp dh dp q p) 22 16 = padR dh 16 0x20#8 :=
  slice_eq_padR fun _ hi => byteAt_encodeFrame_dstHost _ _ _ _ _ _ hi

theorem slice_encodeFrame_dstPort : slice (encodeFrame sh sp dh dp q p) 38 6 = padR dp 6 0x20#8 :=
  slice_eq_padR fun _ hi => byteAt_encodeFrame_dstPort _ _ _ _ _ _ hi

theorem slice_encodeFrame_code : slice (encodeFrame sh sp dh dp q p) 45 3 = cks p :=
  ext_byteAt fun i hi => by rw [byteAt_slice _ _ _ _ hi, byteAt_encodeFrame_code _ _ _ _ _ _ hi]

theorem slice_encodeFrame_payload : slice (encodeFrame sh sp dh dp q p) 48 6 = padR p 6 0x00#8 :=
  slice_eq_padR fun _ hi => byteAt_encodeFrame_payload _ _ _ _ _ _ hi

end Slices

/-! ## The text of an array: its bytes without trailing fill -/

theorem rdropWhile_append_of_pos {l r : List Byte} {p : Byte → Bool} (hr : ∀ b ∈ r, p b = true) :
    (l ++ r).rdropWhile p = l.rdropWhile p := by
  rw [List.rdropWhile, List.reverse_append, List.dropWhile_append_of_pos (by simpa using hr)]
  rfl

/-- The loop of `stripR` drops the last byte while it is fill. -/
theorem take_stripLoop {W : Nat} (f : Vector Byte W) (P : Byte) {n : Nat} (hn : n ≤ W) :
    f.toList.take (stripLoop f P n) = (f.toList.take n).rdropWhile (· == P) := by
  induction n with
  | zero => simp [stripLoop]
  | succ n ih =>
    have hget : f[n]? = some f[n] := Vector.getElem?_eq_getElem _
    have htake : f.toList.take (n + 1) = f.toList.take n ++ [f[n]] := by
      rw [← List.take_append_getElem (by simpa using hn), Vector.getElem_toList]
    rw [htake, List.rdropWhile_concat, ← ih (by omega), stripLoop, hget]
    by_cases hP : f[n] = P
    · simp [hP]
    · simp [hP, htake]

/-- The bytes below `stripR`'s length are the array without its trailing fill. -/
theorem prefixOf_stripR {W : Nat} (f : Vector Byte W) (P : Byte) (hW : W < 256) :
    prefixOf f (lengthByte (stripR f P)) = f.toList.rdropWhile (· == P) := by
  have hle : stripR f P ≤ W := stripR_le f P
  rw [prefixOf, toNat_lengthByte (by omega), stripR, take_stripLoop f P (le_refl W), List.take_of_length_le (by simp)]

/-- A padded text is what the width keeps of it, then fill. -/
theorem toList_padR (l : List Byte) (W : Nat) (P : Byte) :
    (padR l W P).toList = l.take W ++ List.replicate (W - l.length) P := by
  refine List.ext_getElem (by simp; omega) fun i hi _ => ?_
  have hiW : i < W := by simpa using hi
  rw [Vector.getElem_toList, getElem_padR, List.getElem_append]
  split
  · next h =>
    have hl : i < l.length := by rw [List.length_take] at h; omega
    rw [List.getElem_take, List.getD_eq_getElem _ _ hl]
  · next h =>
    have hl : l.length ≤ i := by rw [List.length_take] at h; omega
    rw [List.getElem_replicate, List.getD_eq_default _ _ hl]

/-- Padding adds only fill, so the text of a padded field is the kept bytes without their trailing fill. -/
theorem rdropWhile_toList_padR (l : List Byte) (W : Nat) (P : Byte) :
    (padR l W P).toList.rdropWhile (· == P) = (l.take W).rdropWhile (· == P) := by
  rw [toList_padR, rdropWhile_append_of_pos (by simp)]

/-- A text that does not end in fill is kept whole. -/
theorem rdropWhile_eq_self {l : List Byte} {P : Byte} (h : ∀ hl : l ≠ [], l.getLast hl ≠ P) :
    l.rdropWhile (· == P) = l :=
  List.rdropWhile_eq_self_iff.mpr fun hl => by simpa using h hl

/-- Trailing 0x00 bytes do not change the code (spec/40 R75). -/
theorem cks_rdropWhile_zero (l : List Byte) : cks (l.rdropWhile (· == 0x00#8)) = cks l := by
  refine cks_eq_of_byteSum_eq ?_
  induction l using List.reverseRecOn with
  | nil => rfl
  | append_singleton l b ih =>
    rw [List.rdropWhile_concat]
    split
    · next hb => rw [ih, byteSum_append, eq_of_beq hb]; rfl
    · rfl

/-! ## What DEC loads, as strings -/

theorem eq_doDec {s t : State} (h : exec .dec s = .next t) : t = doDec s :=
  Host.Outcome.next.inj (h.symm.trans (exec_dec s))

theorem eq_doEnc {s t : State} (h : exec .enc s = .next t) : t = doEnc s :=
  Host.Outcome.next.inj (h.symm.trans (exec_enc s))

/-- A text within the first of two arrays set end to end is a text of the first. -/
theorem prefixOf_append {m n : Nat} (v : Vector Byte m) (w : Vector Byte n) {L : Byte} (hL : L.toNat ≤ m) :
    prefixOf (v ++ w) L = prefixOf v L := by
  rw [prefixOf, prefixOf, Vector.toList_append, List.take_append_of_le_length (by simpa using hL)]

/-- What a DEC that completes leaves: each string of the F registers is its field without trailing fill, CK is the
checksum field. -/
theorem doDec_strings {s : State} (hs : s.Decodable) :
    (doDec s).srcHost = (slice s.fb 0 16).toList.rdropWhile (· == 0x20#8)
      ∧ (doDec s).srcPort = (slice s.fb 16 6).toList.rdropWhile (· == 0x20#8)
      ∧ (doDec s).dstHost = (slice s.fb 22 16).toList.rdropWhile (· == 0x20#8)
      ∧ (doDec s).dstPort = (slice s.fb 38 6).toList.rdropWhile (· == 0x20#8)
      ∧ (doDec s).payload = (slice s.fb 48 6).toList.rdropWhile (· == 0x00#8)
      ∧ (doDec s).ck = slice s.fb 45 3 ∧ (doDec s).status = 0x00#8 := by
  have hdec := exec_dec_of_decodable hs
  rw [exec_dec] at hdec
  rw [Host.Outcome.next.inj hdec]
  have hpll : (lengthByte (stripR (slice s.fb 48 6) 0x00#8)).toNat ≤ 6 := lengthByte_le (stripR_le _ _)
  exact ⟨prefixOf_stripR _ _ (by decide), prefixOf_stripR _ _ (by decide), prefixOf_stripR _ _ (by decide),
    prefixOf_stripR _ _ (by decide), (prefixOf_append _ _ hpll).trans (prefixOf_stripR _ _ (by decide)), rfl, rfl⟩

theorem payloadField_eq (f : Vector Byte 54) : payloadField f = (slice f 48 6).toList := by
  refine List.ext_getElem (by simp [payloadField]) fun i hi _ => ?_
  have h6 : i < 6 := by simpa [payloadField] using hi
  simp [payloadField, byteAt_eq f (48 + i) (by omega)]

/-- The code of the payload that DEC loads is that of the frame's six payload bytes (spec/42 R100). -/
theorem cks_payload_doDec {s : State} (hs : s.Decodable) : cks (doDec s).payload = cks (payloadField s.fb) := by
  obtain ⟨-, -, -, -, hpayload, -, -⟩ := doDec_strings hs
  rw [hpayload, cks_rdropWhile_zero, payloadField_eq]

/-- Settles O46: DEC carries the checksum field to CK, and CKS sums the loaded payload. -/
theorem cksAfterDecComputesFieldCode : Obligations.CksAfterDecComputesFieldCode := by
  intro s hs
  obtain ⟨-, -, -, -, -, hck, hstatus⟩ := doDec_strings hs
  refine ⟨_, _, exec_dec s, exec_cks _, fun i hi => ?carried, ?computed⟩
  case carried => rw [hck, byteAt_slice _ _ _ _ hi]
  case computed => rw [doCks_eq, cks_payload_doDec hs, ← hstatus]

/-- Settles O43: the bytes of the field beyond the loaded payload are 0x00, so a terminator in the field is in the
payload. -/
theorem lastAfterDecode : Obligations.LastAfterDecode := by
  intro s hs
  obtain ⟨-, hload⟩ := decLoadsFrameRegisters
  obtain ⟨t, ht, -, -, -, -, -, -, -, -, -, -, -, -, -, -, -, hpl, -, ⟨hpll, hfill, -⟩, -⟩ := hload s hs
  have hiff : t.HoldsTerminator ↔ FieldHoldsTerminator s.fb := by
    constructor
    · rintro ⟨i, hi, hbyte⟩
      exact ⟨i, by omega, by rw [← hpl i (by omega), hbyte]⟩
    · rintro ⟨i, hi, hbyte⟩
      have hL : i < t.pll.toNat := by
        by_contra hge
        rw [hfill i hi (by omega)] at hbyte
        exact absurd hbyte (by decide)
      exact ⟨i, hL, by rw [hpl i hi, hbyte]⟩
  refine ⟨t, ht, ?_⟩
  rw [exec_hrd_last_eq_ite (by omega)]
  simp only [hiff]

/-! ## DEC, then ENC (spec/41 R87, R88) -/

/-- Every byte of a frame stands in one of its seven fields (spec/30 R45). -/
theorem frame_field_cases {motive : Nat → Prop} (srcHost : ∀ j < 16, motive j) (srcPort : ∀ j < 6, motive (16 + j))
    (dstHost : ∀ j < 16, motive (22 + j)) (dstPort : ∀ j < 6, motive (38 + j)) (seq : motive 44)
    (code : ∀ j < 3, motive (45 + j)) (payload : ∀ j < 6, motive (48 + j)) {i : Nat} (hi : i < 54) : motive i := by
  have field {off W : Nat} (h : ∀ j < W, motive (off + j)) (hlo : off ≤ i) (hhi : i < off + W) : motive i := by
    obtain ⟨j, rfl⟩ := Nat.exists_eq_add_of_le hlo
    exact h j (by omega)
  rcases Nat.lt_or_ge i 16 with h16 | h16
  · exact srcHost i h16
  rcases Nat.lt_or_ge i 22 with h22 | h22
  · exact field srcPort h16 h22
  rcases Nat.lt_or_ge i 38 with h38 | h38
  · exact field dstHost h22 h38
  rcases Nat.lt_or_ge i 44 with h44 | h44
  · exact field dstPort h38 h44
  rcases Nat.lt_or_ge i 45 with h45 | h45
  · obtain rfl : i = 44 := by omega
    exact seq
  rcases Nat.lt_or_ge i 48 with h48 | h48
  · exact field code h45 h48
  · exact field payload h48 hi

/-- A field's text, padded again, is the field. -/
theorem TextOf.ite_eq {f : Vector Byte 54} {off W N L i : Nat} {P : Byte} {v : Vector Byte N}
    (ht : TextOf f off W P L) (hv : ∀ j < W, byteAt v j = byteAt f (off + j)) (hi : i < W) :
    (if i < L then byteAt v i else P) = byteAt f (off + i) := by
  obtain ⟨-, hfill, -⟩ := ht
  split
  · exact hv i hi
  · next h => exact (hfill i hi (by omega)).symm

/-- A good sequence byte is the character of its own bit. -/
theorem GoodSeqByte.ite_eq {f : Vector Byte 54} (h : GoodSeqByte f) :
    (if (if byteAt f 44 = 0x31#8 then 1#1 else 0#1) = 1#1 then 0x31#8 else 0x30#8) = byteAt f 44 := by
  rcases h with h | h <;> rw [h] <;> rfl

/-- The frame of what DEC loaded is the frame it loaded, the checksum field apart. -/
theorem byteAt_frame_doDec {s : State} (hs : s.Decodable) {i : Nat} (hi : i < 54) :
    i < 45 ∨ 48 ≤ i → byteAt (doDec s).frame i = byteAt s.fb i := by
  obtain ⟨-, hload⟩ := decLoadsFrameRegisters
  obtain ⟨t, ht, -, -, -, -, -, hsh, hshl, hsp, hspl, hdh, hdhl, hdp, hdpl, hseq, -, hpl, -, hpll, -, -, -, -, -,
    hinv⟩ := hload s hs
  obtain rfl := eq_doDec ht
  obtain ⟨-, -, hbuild⟩ := encBuildsFrame
  obtain ⟨u, hu, -, hsh', hsp', hdh', hdp', hseq', -, hpl'⟩ := hbuild _ hinv
  obtain rfl := eq_doEnc hu
  refine frame_field_cases (motive := fun i => i < 45 ∨ 48 ≤ i → byteAt (doDec s).frame i = byteAt s.fb i) ?srcHost
    ?srcPort ?dstHost ?dstPort ?seq ?code ?payload hi
  case srcHost =>
    intro j hj _
    have hv : ∀ k < 16, byteAt (doDec s).sh k = byteAt s.fb (0 + k) := by simpa using hsh
    exact (hsh' j hj).trans ((hshl.ite_eq hv hj).trans (by rw [Nat.zero_add]))
  case srcPort => exact fun j hj _ => (hsp' j hj).trans (hspl.textOf.ite_eq hsp hj)
  case dstHost => exact fun j hj _ => (hdh' j hj).trans (hdhl.ite_eq hdh hj)
  case dstPort => exact fun j hj _ => (hdp' j hj).trans (hdpl.textOf.ite_eq hdp hj)
  case seq => exact fun _ => hseq'.trans (by rw [hseq, hs.seqByte.ite_eq])
  case code => exact fun j hj hne => absurd hne (by omega)
  case payload => exact fun j hj _ => (hpl' j hj).trans (hpll.ite_eq hpl hj)

/-- Settles O45: outside the checksum field the frame is the one DEC loaded, and in it stands the code of the payload
field. -/
theorem decThenEncReproducesFrame : Obligations.DecThenEncReproducesFrame := by
  intro s hs
  have hcode : ∀ i < 3, byteAt (doDec s).frame (45 + i) = byteAt (cks (payloadField s.fb)) i := fun i hi => by
    rw [State.frame, byteAt_encodeFrame_code _ _ _ _ _ _ hi, cks_payload_doDec hs]
  refine ⟨_, _, exec_dec s, exec_enc _, fun i => byteAt_frame_doDec hs, hcode, fun heq i hi => ?_, fun heq => ?_⟩
  · rw [← hcode i hi, ← heq, doEnc_fb]
  · refine ext_byteAt fun i hi => ?_
    by_cases hck : i < 45 ∨ 48 ≤ i
    · exact byteAt_frame_doDec hs hi hck
    · obtain ⟨j, rfl⟩ := Nat.exists_eq_add_of_le (show 45 ≤ i by omega)
      rw [heq j (by omega), ← hcode j (by omega), doEnc_fb]

/-- Settles O49: the sequence byte and the payload field of a frame are functions of SEQ, PL and PLL, so they are those
of the frame that DEC loaded. -/
theorem ackEchoesPayloadAndSequence : Obligations.AckEchoesPayloadAndSequence := by
  intro s hs
  refine ⟨_, exec_dec s, fun u hseq hpl hpll => ⟨_, exec_enc u, ?seq, fun i hi => ?payload⟩⟩
  case seq =>
    rw [← byteAt_frame_doDec hs (by decide) (by decide), doEnc_fb, State.frame, State.frame, byteAt_encodeFrame_seq,
      byteAt_encodeFrame_seq, hseq]
  case payload =>
    have hpayload : u.payload = (doDec s).payload := by rw [State.payload, State.payload, hpl, hpll]
    rw [← byteAt_frame_doDec hs (by omega) (by omega), doEnc_fb, State.frame, State.frame,
      byteAt_encodeFrame_payload _ _ _ _ _ _ hi, byteAt_encodeFrame_payload _ _ _ _ _ _ hi, hpayload]

/-! ## ENC, then DEC (spec/41 R82, R87, spec/70 R138 to R140) -/

/-- A numeric port of the registers is a numeric port of the frame. -/
theorem numericPort_of_eq_ite {f : Vector Byte 54} {off : Nat} {v : Vector Byte 6} {n : Byte} (hn : n.toNat ≤ 6)
    (hf : ∀ i < 6, byteAt f (off + i) = if i < n.toNat then byteAt v i else 0x20#8)
    (hport : 1 ≤ n.toNat ∧ ∀ i < n.toNat, 0x30#8 ≤ byteAt v i ∧ byteAt v i ≤ 0x39#8) : NumericPort f off := by
  obtain ⟨hpos, hdig⟩ := hport
  refine ⟨n.toNat, by omega, hpos, hn, fun i hi => ?_, fun i hi hL => ?_⟩
  · rw [hf i (by omega), if_pos hi]
    exact hdig i hi
  · rw [hf i hi, if_neg (by omega)]

/-- DEC accepts every frame that ENC builds with numeric ports. -/
theorem State.PortsNumeric.decodable_doEnc {s : State} (hs : s.PortsNumeric) : (doEnc s).Decodable := by
  obtain ⟨-, -, hbuild⟩ := encBuildsFrame
  obtain ⟨t, ht, -, -, hsp, -, hdp, hseq, -, -⟩ := hbuild s hs.inv
  obtain rfl := eq_doEnc ht
  exact ⟨doEnc_fbl s, numericPort_of_eq_ite hs.inv.spl_le hsp hs.srcPort,
    numericPort_of_eq_ite hs.inv.dpl_le hdp hs.dstPort, goodSeqByte_of_eq_ite hseq⟩

/-- A register's text that does not end in fill is kept whole. -/
theorem rdropWhile_prefixOf {W : Nat} {v : Vector Byte W} {n P : Byte} (hn : n.toNat ≤ W)
    (hlast : 0 < n.toNat → byteAt v (n.toNat - 1) ≠ P) : (prefixOf v n).rdropWhile (· == P) = prefixOf v n := by
  have hlen : (prefixOf v n).length = n.toNat := by rw [length_prefixOf, min_eq_left hn]
  refine rdropWhile_eq_self fun hne => ?_
  rw [List.getLast_eq_getElem, getElem_prefixOf, hlen]
  exact hlast (by rw [← hlen]; exact List.length_pos_iff.mpr hne)

/-- A numeric port does not end in a space. -/
theorem rdropWhile_port {v : Vector Byte 6} {n : Byte} (hn : n.toNat ≤ 6)
    (hport : 1 ≤ n.toNat ∧ ∀ i < n.toNat, 0x30#8 ≤ byteAt v i ∧ byteAt v i ≤ 0x39#8) :
    (prefixOf v n).rdropWhile (· == 0x20#8) = prefixOf v n :=
  rdropWhile_prefixOf hn fun _ => ne_space_of_digit (hport.2 _ (by omega))

theorem take_prefixOf {W : Nat} (v : Vector Byte W) (n : Byte) : (prefixOf v n).take W = prefixOf v n :=
  List.take_of_length_le (by rw [length_prefixOf]; exact min_le_right _ _)

/-- What ENC, then DEC, leaves of the strings: trailing fill is lost, and the payload beyond six bytes; CK carries the
code of the whole payload. -/
theorem doDec_doEnc_strings {s : State} (hs : s.PortsNumeric) :
    (doDec (doEnc s)).srcHost = s.srcHost.rdropWhile (· == 0x20#8)
      ∧ (doDec (doEnc s)).srcPort = s.srcPort
      ∧ (doDec (doEnc s)).dstHost = s.dstHost.rdropWhile (· == 0x20#8)
      ∧ (doDec (doEnc s)).dstPort = s.dstPort
      ∧ (doDec (doEnc s)).payload = (s.payload.take 6).rdropWhile (· == 0x00#8)
      ∧ (doDec (doEnc s)).ck = cks s.payload ∧ (doDec (doEnc s)).status = 0x00#8 := by
  obtain ⟨hsh, hsp, hdh, hdp, hpl, hck, hstatus⟩ := doDec_strings hs.decodable_doEnc
  rw [doEnc_fb, State.frame] at hsh hsp hdh hdp hpl hck
  rw [slice_encodeFrame_srcHost, rdropWhile_toList_padR] at hsh
  rw [slice_encodeFrame_srcPort, rdropWhile_toList_padR] at hsp
  rw [slice_encodeFrame_dstHost, rdropWhile_toList_padR] at hdh
  rw [slice_encodeFrame_dstPort, rdropWhile_toList_padR] at hdp
  rw [slice_encodeFrame_payload, rdropWhile_toList_padR] at hpl
  rw [slice_encodeFrame_code] at hck
  refine ⟨hsh.trans ?_, hsp.trans ?_, hdh.trans ?_, hdp.trans ?_, hpl, hck, hstatus⟩
  · rw [State.srcHost, take_prefixOf]
  · rw [State.srcPort, take_prefixOf, rdropWhile_port hs.inv.spl_le hs.srcPort]
  · rw [State.dstHost, take_prefixOf]
  · rw [State.dstPort, take_prefixOf, rdropWhile_port hs.inv.dpl_le hs.dstPort]

/-- The character of a sequence bit gives the bit back. -/
theorem seq_doDec_doEnc {s : State} (hs : s.PortsNumeric) : (doDec (doEnc s)).seq = s.seq := by
  obtain ⟨-, hload⟩ := decLoadsFrameRegisters
  obtain ⟨t, ht, -, -, -, -, -, -, -, -, -, -, -, -, -, hseq, -⟩ := hload _ hs.decodable_doEnc
  rw [← eq_doDec ht, hseq, doEnc_fb, State.frame, byteAt_encodeFrame_seq]
  generalize s.seq = q
  revert q
  decide

/-- Settles O48: the strings lose their trailing fill, and the sequence bit comes back. -/
theorem roundTripLosesTrailingFillOnly : Obligations.RoundTripLosesTrailingFillOnly := by
  intro s hs
  obtain ⟨hsh, hsp, hdh, hdp, hpl, -, hstatus⟩ := doDec_doEnc_strings hs
  exact ⟨_, _, exec_enc s, exec_dec _, hstatus, seq_doDec_doEnc hs, hsh, hdh, hsp, hdp, hpl⟩

theorem State.length_payload_le {s : State} {n : Nat} (h : s.pll.toNat ≤ n) : s.payload.length ≤ n := by
  rw [State.payload, length_prefixOf]
  exact min_le_of_left_le h

/-- Settles O47: the carried code is over the whole payload, the computed one over what DEC loaded of it. -/
theorem carriedAndComputedCodes : Obligations.CarriedAndComputedCodes := by
  intro s hs
  obtain ⟨-, -, -, -, hpl, hck, hstatus⟩ := doDec_doEnc_strings hs
  have hcomputed : cks (doDec (doEnc s)).payload = cks (s.payload.take 6) := by rw [hpl, cks_rdropWhile_zero]
  refine ⟨_, _, _, exec_enc s, exec_dec _, exec_cks _, hstatus, hck, hcomputed, fun h6 => ?_⟩
  rw [doCks_ck, hcomputed, hck, List.take_of_length_le (State.length_payload_le h6)]

/-- Texts that are equal have equal lengths in the length registers. -/
theorem length_eq_of_prefixOf_eq {W : Nat} {v w : Vector Byte W} {m n : Byte} (hm : m.toNat ≤ W) (hn : n.toNat ≤ W)
    (h : prefixOf v m = prefixOf w n) : m = n := by
  have hlen := congrArg List.length h
  rw [length_prefixOf, length_prefixOf, min_eq_left hm, min_eq_left hn] at hlen
  exact BitVec.eq_of_toNat_eq hlen

/-- CKS changes nothing where CK is already the code of the payload and STATUS is 0x00. -/
theorem doCks_eq_self {s : State} (hck : s.ck = cks s.payload) (hstatus : s.status = 0x00#8) : doCks s = s := by
  rw [doCks_eq, ← hck, ← hstatus]

/-- A state that round-trips loses none of its strings. -/
theorem State.RoundTrips.strings {s : State} (hs : s.RoundTrips) :
    s.srcHost.rdropWhile (· == 0x20#8) = s.srcHost ∧ s.dstHost.rdropWhile (· == 0x20#8) = s.dstHost
      ∧ (s.payload.take 6).rdropWhile (· == 0x00#8) = s.payload := by
  rw [List.take_of_length_le (State.length_payload_le hs.payload_le)]
  exact ⟨rdropWhile_prefixOf hs.inv.shl_le hs.srcHost, rdropWhile_prefixOf hs.inv.dhl_le hs.dstHost,
    rdropWhile_prefixOf hs.inv.pll_le hs.payload_end⟩

/-- Settles O44: the strings come back whole, so the lengths do; the bytes are those of the frame; and the carried code
is that of the loaded payload. -/
theorem encThenDecRoundTrip : Obligations.EncThenDecRoundTrip := by
  intro s hs
  have hports : s.PortsNumeric := hs.toPortsNumeric
  obtain ⟨hsh, hsp, hdh, hdp, hpl, hck, hstatus⟩ := doDec_doEnc_strings hports
  obtain ⟨hsrc, hdst, hpay⟩ := hs.strings
  rw [hsrc] at hsh
  rw [hdst] at hdh
  rw [hpay] at hpl
  obtain ⟨-, hload⟩ := decLoadsFrameRegisters
  obtain ⟨u, hu, -, -, -, -, -, bsh, -, bsp, -, bdh, -, bdp, -, -, -, bpl, bfill, -, -, -, -, -, -, hinv⟩ :=
    hload _ hports.decodable_doEnc
  rw [← eq_doDec hu] at hsh hsp hdh hdp hpl hck hstatus
  obtain ⟨-, -, hbuild⟩ := encBuildsFrame
  obtain ⟨t, ht, -, fsh, fsp, fdh, fdp, -, -, fpl⟩ := hbuild s hs.inv
  obtain rfl := eq_doEnc ht
  refine ⟨_, u, exec_enc s, hu, hstatus, length_eq_of_prefixOf_eq hinv.shl_le hs.inv.shl_le hsh,
    length_eq_of_prefixOf_eq hinv.spl_le hs.inv.spl_le hsp, length_eq_of_prefixOf_eq hinv.dhl_le hs.inv.dhl_le hdh,
    length_eq_of_prefixOf_eq hinv.dpl_le hs.inv.dpl_le hdp,
    length_eq_of_prefixOf_eq hinv.pll_le hs.inv.pll_le hpl, eq_doDec hu ▸ seq_doDec_doEnc hports,
    fun i hi => (bsh i hi).trans (fsh i hi), fun i hi => (bsp i hi).trans (fsp i hi),
    fun i hi => (bdh i hi).trans (fdh i hi), fun i hi => (bdp i hi).trans (fdp i hi), fun i hi => ?_, hck, ?_⟩
  · have h6 := hs.payload_le
    rcases Nat.lt_or_ge i 6 with hlt | hge
    · exact (bpl i hlt).trans (fpl i hlt)
    · rw [bfill i hi hge, if_neg (by omega)]
  · rw [exec_cks, doCks_eq_self (by rw [hck, hpl]) hstatus]

end Sys2Proof.Machine

/-! PROOFS. Running the script lines SETS and LOADF (spec/30 R62, spec/20 R39). -/

namespace Sys2Proof.Machine

/-! ## Writes in a run -/

theorem run_succ_of_step {s t : State} (h : step s = .next t) (k : Nat) :
    Host.Core.run Sys2Proof.core (k + 1) s = Host.Core.run Sys2Proof.core k t := by
  have hstep : Sys2Proof.core.step s = .next t := h
  simp only [Host.Core.run, hstep]

/-- A plain write does not touch the model's own fields, so accepting the word may come after it. -/
theorem State.writeLoc_accept (s : State) (rest : List HostEvent) (d : Byte) (l : Loc) :
    (s.accept rest).writeLoc d l = (s.writeLoc d l).accept rest := by
  cases l <;> rfl

theorem State.accept_accept (s : State) (r r' : List HostEvent) : (s.accept r).accept r' = s.accept r' := rfl

theorem State.read_accept (s : State) (rest : List HostEvent) (a : Byte) : (s.accept rest).read a = s.read a := by
  unfold State.read
  cases locate a <;> rfl

/-- The step of a plain write. -/
theorem step_writeEvent {s : State} {a d : Byte} {rest : List HostEvent} (ha : a ≠ Config.addrCMD)
    (h : s.script = writeEvent a d :: rest) : step s = .next ((s.writeLoc d (locate a)).accept rest) := by
  rw [step_word h, decode_build_write ha, exec_hwr_plain ha, State.writeLoc_accept]

/-- The state after plain writes of the bytes to consecutive addresses from `a` on, in order. -/
def State.writeFrom (s : State) (a : Byte) : List Byte → State
  | [] => s
  | b :: bs => (s.writeLoc b (locate a)).writeFrom (a + 1#8) bs

theorem State.writeFrom_accept (s : State) (rest : List HostEvent) (a : Byte) (bytes : List Byte) :
    (s.accept rest).writeFrom a bytes = (s.writeFrom a bytes).accept rest := by
  induction bytes generalizing s a with
  | nil => rfl
  | cons b bs ih => rw [State.writeFrom, State.writeFrom, State.writeLoc_accept, ih]

/-- The address after the first, by its distance. -/
theorem add_one_add_ofNat (a : Byte) (i : Nat) : a + 1#8 + BitVec.ofNat 8 i = a + BitVec.ofNat 8 (i + 1) := by
  rw [Nat.add_comm i 1, BitVec.ofNat_add, BitVec.add_assoc]

/-- A fact of all addresses of a run of writes, for the first and for the others. -/
theorem forall_addr_cons {P : Byte → Prop} {a b : Byte} {bs : List Byte}
    (h : ∀ i < (b :: bs).length, P (a + BitVec.ofNat 8 i)) :
    P a ∧ ∀ i < bs.length, P (a + 1#8 + BitVec.ofNat 8 i) := by
  refine ⟨?_, fun i hi => ?_⟩
  · simpa using h 0 (Nat.succ_pos _)
  · rw [add_one_add_ofNat]
    exact h (i + 1) (Nat.succ_lt_succ hi)

/-- A run of plain writes to consecutive addresses and one more, a step each. -/
theorem run_writeRun_writeEvent {s : State} {a la v : Byte} {bytes : List Byte} {rest : List HostEvent}
    (hplain : ∀ i < bytes.length, a + BitVec.ofNat 8 i ≠ Config.addrCMD) (hla : la ≠ Config.addrCMD)
    (h : s.script = writeRun a bytes ++ writeEvent la v :: rest) :
    Host.Core.run Sys2Proof.core (bytes.length + 1) s
      = .next (((s.writeFrom a bytes).writeLoc v (locate la)).accept rest) := by
  induction bytes generalizing s a with
  | nil => exact (run_succ_of_step (step_writeEvent hla h) 0).trans rfl
  | cons b bs ih =>
    obtain ⟨ha, htail⟩ := forall_addr_cons (P := (· ≠ Config.addrCMD)) hplain
    rw [List.length_cons, run_succ_of_step (step_writeEvent ha h), ih htail rfl, State.writeFrom_accept,
      State.writeLoc_accept, State.accept_accept]
    rfl

/-! ## What the writes leave in the register map -/

/-- Addresses outside the run read as before, LAST apart. -/
theorem State.read_writeFrom_of_ne {s : State} {a b : Byte} {bytes : List Byte}
    (hne : ∀ i < bytes.length, b ≠ a + BitVec.ofNat 8 i) (hlast : b ≠ Config.addrLAST) :
    (s.writeFrom a bytes).read b = s.read b := by
  induction bytes generalizing s a with
  | nil => rfl
  | cons c cs ih =>
    obtain ⟨ha, htail⟩ := forall_addr_cons (P := (b ≠ ·)) hne
    rw [State.writeFrom, ih htail, State.read_writeLoc_of_ne s c ha hlast]

/-- The addresses of the arrays a host may write: a write there is read back as it was written. -/
abbrev ArrayAddr (a : Byte) : Prop :=
  (a ≤ 0x3F#8 ∨ (0x80#8 ≤ a ∧ a ≤ 0xB5#8)) ∧ ¬ ReservedAddr a

theorem ArrayAddr.ne_addrCMD : ∀ {a : Byte}, ArrayAddr a → a ≠ Config.addrCMD := by
  decide

theorem ArrayAddr.ne_addrLAST : ∀ {a : Byte}, ArrayAddr a → a ≠ Config.addrLAST := by
  decide

/-- An array's address is none of those that ignore, clamp or cut what is written. -/
theorem ArrayAddr.stores : ∀ {a : Byte}, ArrayAddr a → ¬ IgnoredAddr a
    ∧ ¬ (a = 0x40#8 ∨ a = 0x42#8 ∨ a = 0x44#8) ∧ ¬ (a = 0x41#8 ∨ a = 0x43#8) ∧ a ≠ 0x45#8 := by
  decide

theorem ArrayAddr.read_writeLoc {a : Byte} (h : ArrayAddr a) (s : State) (d : Byte) :
    (s.writeLoc d (locate a)).read a = d := by
  obtain ⟨hstores, h16, h6, hseq⟩ := h.stores
  rw [s.read_writeLoc_of_stores d h.ne_addrCMD hstores, if_neg h16, if_neg h6, if_neg hseq]

/-- Different distances below 256 lead to different addresses. -/
theorem add_ofNat_ne {a : Byte} {i j : Nat} (hi : i < 256) (hj : j < 256) (hij : i ≠ j) :
    a + BitVec.ofNat 8 i ≠ a + BitVec.ofNat 8 j := by
  intro h
  have hnat := congrArg BitVec.toNat (add_left_cancel h)
  rw [BitVec.toNat_ofNat, BitVec.toNat_ofNat, Nat.mod_eq_of_lt hi, Nat.mod_eq_of_lt hj] at hnat
  exact hij hnat

/-- The addresses of the run read the bytes written there. -/
theorem State.read_writeFrom {s : State} {a : Byte} {bytes : List Byte} (hlen : bytes.length ≤ 256)
    (harr : ∀ i < bytes.length, ArrayAddr (a + BitVec.ofNat 8 i)) {i : Nat} (hi : i < bytes.length) :
    (s.writeFrom a bytes).read (a + BitVec.ofNat 8 i) = bytes[i] := by
  induction bytes generalizing s a i with
  | nil => exact absurd hi (Nat.not_lt_zero i)
  | cons b bs ih =>
    obtain ⟨ha, htail⟩ := forall_addr_cons harr
    rw [List.length_cons] at hlen
    cases i with
    | zero =>
      have hne : ∀ j < bs.length, a ≠ a + 1#8 + BitVec.ofNat 8 j := fun j hj => by
        rw [add_one_add_ofNat]
        simpa using add_ofNat_ne (a := a) (i := 0) (by decide) (show j + 1 < 256 by omega) (by omega)
      rw [show a + BitVec.ofNat 8 0 = a by simp, State.writeFrom, State.read_writeFrom_of_ne hne ha.ne_addrLAST,
        ha.read_writeLoc]
      rfl
    | succ i =>
      rw [← add_one_add_ofNat, State.writeFrom, ih (by omega) htail (Nat.lt_of_succ_lt_succ hi)]
      rfl

/-! ## SETS (spec/30 R62) -/

theorem StrReg.arrayAddr (r : StrReg) {i : Nat} (hi : i < r.size) : ArrayAddr (r.base + BitVec.ofNat 8 i) := by
  revert i
  cases r <;> decide

theorem StrReg.ne_lenAddr (r : StrReg) {i : Nat} (hi : i < r.size) : r.base + BitVec.ofNat 8 i ≠ r.lenAddr := by
  revert i
  cases r <;> decide

theorem StrReg.read_writeLoc_lenAddr (r : StrReg) (s : State) (d : Byte) :
    (s.writeLoc d (locate r.lenAddr)).read r.lenAddr = clamp d r.size := by
  cases r <;> rfl

theorem StrReg.size_le (r : StrReg) : r.size ≤ 16 := by
  cases r <;> decide

theorem StrReg.lenAddr_ne_addrCMD (r : StrReg) : r.lenAddr ≠ Config.addrCMD := by
  cases r <;> decide

/-- A length within the bound is stored as it is. -/
theorem clamp_ofNat {n m : Nat} (h : n ≤ m) (hm : m < 256) : clamp (BitVec.ofNat 8 n) m = BitVec.ofNat 8 n := by
  rw [clamp, BitVec.toNat_ofNat, Nat.mod_eq_of_lt (by omega), min_eq_left h]

/-- Settles O50: the bytes are written to array addresses, and the last write leaves them and stores the length. -/
theorem setsLoadsStringRegister : Obligations.SetsLoadsStringRegister := by
  intro s r bytes rest hlen hscript
  have hsize := r.size_le
  have harr : ∀ i < bytes.length, ArrayAddr (r.base + BitVec.ofNat 8 i) := fun i hi => r.arrayAddr (by omega)
  have hrun := run_writeRun_writeEvent (fun i hi => (harr i hi).ne_addrCMD) r.lenAddr_ne_addrCMD
    (hscript.trans (List.append_assoc _ _ _))
  refine ⟨_, hrun, rfl, rfl, fun i hi => ?bytes, ?length, fun b hbytes hlenAddr hlast => ?others⟩
  case bytes =>
    rw [State.read_accept, State.read_writeLoc_of_ne _ _ (r.ne_lenAddr (by omega)) (harr i hi).ne_addrLAST,
      State.read_writeFrom (by omega) harr hi]
  case length => rw [State.read_accept, r.read_writeLoc_lenAddr, clamp_ofNat hlen (by omega)]
  case others =>
    rw [State.read_accept, State.read_writeLoc_of_ne _ _ hlenAddr hlast, State.read_writeFrom_of_ne hbytes hlast]

/-! ## LOADF (spec/30 R62) -/

/-- Writes to the frame buffer change no other register. -/
theorem State.writeFrom_eq_of_fb {s : State} {a : Byte} {bytes : List Byte}
    (hfb : ∀ i < bytes.length, ∃ j, locate (a + BitVec.ofNat 8 i) = .fb j) :
    s.writeFrom a bytes = { s with fb := (s.writeFrom a bytes).fb } := by
  induction bytes generalizing s a with
  | nil => rfl
  | cons b bs ih =>
    obtain ⟨⟨j, hloc⟩, htail⟩ := forall_addr_cons (P := fun c => ∃ j, locate c = .fb j) hfb
    rw [State.writeFrom, ih htail, hloc]
    rfl

/-- The addresses of the frame buffer. -/
theorem locate_baseFB_add {i : Nat} (hi : i < 54) : locate (Config.baseFB + BitVec.ofNat 8 i) = .fb ⟨i, hi⟩ := by
  rw [← locate_fb i hi, BitVec.ofNat_add]

theorem arrayAddr_baseFB_add : ∀ i < 54, ArrayAddr (Config.baseFB + BitVec.ofNat 8 i) := by
  decide

/-- The frame buffer by the reads of its addresses. -/
theorem State.byteAt_fb (s : State) {i : Nat} (hi : i < 54) :
    byteAt s.fb i = s.read (Config.baseFB + BitVec.ofNat 8 i) := by
  rw [State.read, locate_baseFB_add hi, byteAt_eq s.fb i hi]
  rfl

/-- Settles O51: the writes stay within FB, whose bytes are what its addresses read, and the last one stores FBL. -/
theorem loadfLoadsFrameBuffer : Obligations.LoadfLoadsFrameBuffer := by
  intro s n bytes rest hlen hscript
  have h54 : bytes.length ≤ 54 := by omega
  have harr : ∀ i < bytes.length, ArrayAddr (Config.baseFB + BitVec.ofNat 8 i) := fun i hi =>
    arrayAddr_baseFB_add i (by omega)
  have hrun := run_writeRun_writeEvent (fun i hi => (harr i hi).ne_addrCMD) (la := Config.addrFBL) (by decide)
    (hscript.trans (List.append_assoc _ _ _))
  have hfb : ((s.writeFrom Config.baseFB bytes).writeLoc (BitVec.ofNat 8 (min n 255)) (locate Config.addrFBL)).fb
      = (s.writeFrom Config.baseFB bytes).fb := rfl
  refine ⟨_, hrun, ?others, fun i hi => ?bytes, fun i hi hge => ?kept⟩
  case others =>
    rw [State.writeFrom_eq_of_fb fun i hi => ⟨_, locate_baseFB_add (show i < 54 by omega)⟩]
    rfl
  case bytes =>
    rw [State.accept_fb, hfb, State.byteAt_fb _ (by omega), State.read_writeFrom (by omega) harr hi]
  case kept =>
    have hne : ∀ j < bytes.length, Config.baseFB + BitVec.ofNat 8 i ≠ Config.baseFB + BitVec.ofNat 8 j := fun j hj =>
      add_ofNat_ne (by omega) (by omega) (by omega)
    have hlast := (arrayAddr_baseFB_add i hi).ne_addrLAST
    rw [State.accept_fb, hfb, State.byteAt_fb _ hi, State.read_writeFrom_of_ne hne hlast, ← State.byteAt_fb _ hi]

end Sys2Proof.Machine
